-- ==== Sys2Proof/Word.lean ====
section
/-! DEFINITION. The data types of rule R8 (spec/00_scope.md) and rule R74 (spec/30_encoding.md): the 32-bit Word and
the 16-bit offset field. The Byte is no unit of this machine (R50, R52): it is only how this model's memory stores a
Word (notes/assumptions/1.md). -/

namespace Sys2Proof

/-- R8: "A `Word` is a 32-bit bit vector." A register, a memory word and an instruction are each one Word. -/
abbrev Word := BitVec 32

/-- R74, R78: the 16-bit `offset` field `w[15:0]` of the I-type format. -/
abbrev Offset := BitVec 16

/-- The unit in which the model's memory list stores a Word (D16, notes/assumptions/1.md). -/
abbrev Byte := BitVec 8

/-- A token or a record of text (R171, R240), as its list of characters (notes/assumptions/14.md). -/
abbrev Token := List Char

end Sys2Proof
end

