-- ==== Sys2Proof/Syntax.lean ====
section
/-! DEFINITION. The eight instructions of rule R80 (spec/30_encoding.md) as syntax, one constructor per row of
spec/opcode_table.json. `.fill` is a directive and no instruction (R2, R77): it is in Machine/Assembler.lean. -/

namespace Sys2Proof

/-- R79: a register field is an unsigned 3-bit number `n` in `[0, 8)` and names `x[n]`. -/
abbrev RegNum := Fin 8

/-- The instruction set, "exactly the eight instructions" of R2, operands in the order of the assembly syntax (R176). -/
inductive Instr where
  /-- `add regA regB destReg` (R120). -/
  | add (regA regB destReg : RegNum)
  /-- `nor regA regB destReg` (R125). -/
  | nor (regA regB destReg : RegNum)
  /-- `lw regA regB offset` (R130). -/
  | lw (regA regB : RegNum) (offset : Offset)
  /-- `sw regA regB offset` (R135). -/
  | sw (regA regB : RegNum) (offset : Offset)
  /-- `beq regA regB offset` (R140). -/
  | beq (regA regB : RegNum) (offset : Offset)
  /-- `jalr regA regB` (R150). -/
  | jalr (regA regB : RegNum)
  /-- `halt` (R160). -/
  | halt
  /-- `noop` (R165). -/
  | noop
  deriving DecidableEq, Repr

end Sys2Proof
end

