-- ==== Sys2Proof/WellFormed.lean ====
section
/-! DEFINITION. Which instructions the assembler may emit (rule R181 of spec/45_assembler.md). Every other bound on an
operand (register numbers below 8, a 16-bit offset: R74, R79) is carried by the operand's type.

The ENGINE executes every instruction, the ill-formed ones too (R21, R170): no meaning and no decoding looks at this
check (notes/assumptions/12.md). -/

namespace Sys2Proof

/-- R181: "The destination register of an R-type instruction additionally must not be 0". -/
def Instr.wellFormed : Instr → Bool
  | .add _ _ destReg => destReg != 0
  | .nor _ _ destReg => destReg != 0
  | .lw _ _ _ => true
  | .sw _ _ _ => true
  | .beq _ _ _ => true
  | .jalr _ _ => true
  | .halt => true
  | .noop => true

end Sys2Proof
end

