-- ==== Sys2Proof/Decode.lean ====
section
/-! DEFINITION. Decoding and encoding (spec/30_encoding.md). Decoding is total and refuses nothing, because each of the
eight values of the opcode field names an instruction (R81, R83). The encoder follows the canonical words of R84. -/

namespace Sys2Proof

/-- R74: `opcode = w[24:22]`. -/
def opcodeField (w : Word) : Fin 8 := (w.extractLsb' 22 3).toFin

/-- R74: `regA = w[21:19]`. -/
def regAField (w : Word) : RegNum := (w.extractLsb' 19 3).toFin

/-- R74: `regB = w[18:16]`. -/
def regBField (w : Word) : RegNum := (w.extractLsb' 16 3).toFin

/-- R74: `destReg = w[2:0]`, used by `add` and `nor` only. -/
def destRegField (w : Word) : RegNum := (w.extractLsb' 0 3).toFin

/-- R74: `offset = w[15:0]`, used by `lw`, `sw` and `beq` only. -/
def offsetField (w : Word) : Offset := w.extractLsb' 0 16

/-- R102: the instruction selected by the opcode map of R80, with the fields of R74. The link register of `jalr` is
`regB` (R75, 90_conflicts.md C1). -/
def decode (w : Word) : Instr :=
  match opcodeField w with
  | 0 => .add (regAField w) (regBField w) (destRegField w)
  | 1 => .nor (regAField w) (regBField w) (destRegField w)
  | 2 => .lw (regAField w) (regBField w) (offsetField w)
  | 3 => .sw (regAField w) (regBField w) (offsetField w)
  | 4 => .beq (regAField w) (regBField w) (offsetField w)
  | 5 => .jalr (regAField w) (regBField w)
  | 6 => .halt
  | 7 => .noop

/-- R80: "add=0, nor=1, lw=2, sw=3, beq=4, jalr=5, halt=6, noop=7." -/
def Instr.opcode : Instr → Fin 8
  | .add _ _ _ => 0
  | .nor _ _ _ => 1
  | .lw _ _ _ => 2
  | .sw _ _ _ => 3
  | .beq _ _ _ => 4
  | .jalr _ _ => 5
  | .halt => 6
  | .noop => 7

/-- R84: `(op << 22) | (regA << 19) | (regB << 16) | low`. -/
def packFields (op : Fin 8) (regA regB : RegNum) (low : Word) : Word :=
  (BitVec.ofNat 32 op.val <<< 22) ||| (BitVec.ofNat 32 regA.val <<< 19) ||| (BitVec.ofNat 32 regB.val <<< 16) ||| low

/-- R84: the canonical Word of an instruction; every bit its format leaves unused or undecoded is 0 (R186). -/
def encode (i : Instr) : Word :=
  match i with
  | .add regA regB destReg => packFields i.opcode regA regB (BitVec.ofNat 32 destReg.val)
  | .nor regA regB destReg => packFields i.opcode regA regB (BitVec.ofNat 32 destReg.val)
  | .lw regA regB offset => packFields i.opcode regA regB (offset.setWidth 32)
  | .sw regA regB offset => packFields i.opcode regA regB (offset.setWidth 32)
  | .beq regA regB offset => packFields i.opcode regA regB (offset.setWidth 32)
  | .jalr regA regB => packFields i.opcode regA regB 0#32
  | .halt => packFields i.opcode 0 0 0#32
  | .noop => packFields i.opcode 0 0 0#32

/-- R71 to R76, R82: the bits of a Word that decoding an instruction of this shape reads; all others are ignored. -/
def Instr.decodedBits : Instr → Word
  | .add _ _ _ => 0x01FF0007#32
  | .nor _ _ _ => 0x01FF0007#32
  | .lw _ _ _ => 0x01FFFFFF#32
  | .sw _ _ _ => 0x01FFFFFF#32
  | .beq _ _ _ => 0x01FFFFFF#32
  | .jalr _ _ => 0x01FF0000#32
  | .halt => 0x01C00000#32
  | .noop => 0x01C00000#32

/-- The Word whose bits are `w`, the bits from `nbits` up being 0. -/
def tableWord (nbits w : Nat) : Word := BitVec.ofNat 32 (w % 2 ^ nbits)

/-- What the decoder reads from a row of spec/opcode_table.json whose bits are `w`. No instruction is longer than one
32-bit Word (R70), so a longer row is none (notes/assumptions/10.md). -/
def decodeTableWord (nbits w : Nat) : Option Instr :=
  if nbits ≤ 32 then some (decode (tableWord nbits w)) else none

end Sys2Proof
end

