-- ==== Sys2Proof/Config.lean ====
section
/-! DEFINITION. The parameters of rule R6 (spec/00_scope.md) that are fixed for this hardware, and the model's free
values. The open parameter `instBudget` is a field of State and an argument of `load`; the open parameter `MAX_LINE` is
an argument of the assembler, so that a claim holds for every value of either (notes/assumptions/2.md). -/

namespace Sys2Proof

/-- R6: `MEM_WORDS`, the memory capacity in words. -/
abbrev Config.memWords : Nat := 65536

/-- How many cells the model's memory has: four for each Word (notes/assumptions/1.md). -/
abbrev Config.memCells : Nat := 4 * Config.memWords

/-- What a memory cell reads as when the memory list does not name it: a byte of `unloadedInit`, which R6 and R34 fix
at the Word 0. -/
def Config.unlistedByte : Byte := 0#8

/-- The value `instBudget` has in `State.reset`: the source's own example (R6, R107). DESIGN CHOICE, notes/assumptions/2.md. -/
def Config.resetBudget : Option Nat := some 200

/-- FREE VALUE (notes/assumptions/9.md): which of the two load errors of R242 is reported when an image has both. -/
opaque Config.tooLargeReportedFirst : Bool

end Sys2Proof
end

