-- ==== Sys2Proof/Machine/State.lean ====
section
/-! DEFINITION. The architectural state of spec/10_state.md as plain data, and the ways a step can stop. -/

namespace Sys2Proof.Machine

/-- R210 and R242: the fault kinds, each with the one value of R210's last column (R212). -/
inductive FaultKind where
  /-- Code 1, raised by the fetch when `pc` is outside `[0, loadedWordCount)` (R101). Records `pc`. -/
  | fetchOutOfRange (pc : Int)
  /-- Code 2, raised by `lw`, `sw` (negative effective address), taken `beq`, `jalr` (negative new `pc`). Records the
  negative value. -/
  | negativeAddress (value : Int)
  /-- Code 3, raised by `lw`, `sw` when the effective address is `MEM_WORDS` or more (R56). Records that address. -/
  | memoryOutOfRange (ea : Int)
  /-- Code 4, never raised (R83, 90_conflicts.md C5). -/
  | unrecognizedOpcode
  /-- Code 5, raised by the fuse (R107). Records `instCount`. -/
  | runtimeBudgetExceeded (instCount : Nat)
  /-- Code 6, a load error (R242). -/
  | malformedMemoryRecord
  /-- Code 7, a load error (R242). -/
  | imageTooLarge
  deriving DecidableEq, Repr

/-- R30: the run state. -/
inductive RunState where
  | running
  | halted
  | faulted (kind : FaultKind)
  deriving DecidableEq, Repr

/-- R34, R50: the memory, as the list of the cells that differ from what an unlisted cell reads as, cell numbers
strictly rising. The Word at word address `a` is the four cells from `4 * a` on (notes/assumptions/1.md). -/
abbrev Memory := List Host.Cell

/-- Everything the block holds (R20 to R36), and the parameter `instBudget` (R6). -/
structure State where
  /-- R20: `x[0]` to `x[7]`; register 0 is an ordinary register (R21). -/
  regs : Vector Word 8
  /-- R24: the program counter, an integer word address (D17). -/
  pc : Int
  /-- R34: the one memory, shared by instructions and data (R51). -/
  mem : Memory
  /-- R32: a natural number in `[0, MEM_WORDS]`, the bound of instruction fetch. -/
  loadedWordCount : Fin 65537
  /-- R31: the executed-instruction counter, unbounded (D28). -/
  instCount : Nat
  /-- R30. -/
  runState : RunState
  /-- R6, R107: the fuse's ceiling, or none. A parameter of the block, open in the spec, which no step changes
  (notes/assumptions/2.md). -/
  instBudget : Option Nat
  deriving DecidableEq, Repr

/-- Why `step` has no next state. Both stops are safe: R100 says that a block in these states has no step
(notes/assumptions/4.md). A fault of the machine (R210) is none of these: it is a next state with `runState` at
`faulted` (R213). -/
inductive Fault where
  /-- Answered by `step` alone, when `runState` is `halted`. Safe. -/
  | stepWhileHalted
  /-- Answered by `step` alone, when `runState` is `faulted kind`. Safe. -/
  | stepWhileFaulted (kind : FaultKind)
  deriving DecidableEq, Repr

/-- Why an instruction has no meaning. -/
inductive Refusal where
  /-- Answered by an arm of `exec` whose instruction has no meaning yet; no arm of this model answers it. Safe. -/
  | notModelled (mnemonic : String)
  deriving DecidableEq, Repr

/-- R23, R27, R240, R241, R243: the block right after a `load` of the empty image. Every value but that of `instBudget`
is the spec's; a program comes from outside the machine, by `load` (R40, notes/assumptions/3.md). -/
def State.reset : State where
  regs := Vector.replicate 8 0#32
  pc := 0
  mem := []
  loadedWordCount := 0
  instCount := 0
  runState := .running
  instBudget := Config.resetBudget

end Sys2Proof.Machine
end

