-- ==== Sys2Proof/Machine/Ops.lean ====
section
/-! DEFINITION. The named operations every meaning and the step are written from: the conversions of R8, the register
file, the memory, the raising of a fault, and the parts of the instruction cycle (spec/40_step.md). -/

namespace Sys2Proof.Machine

/-! ### Conversions (R8) -/

/-- R8: `uint(w)`, as an integer. -/
def uint (w : Word) : Int := (w.toNat : Int)

/-- R8: `sint(w)`, the two's-complement value. -/
def sint (w : Word) : Int := w.toInt

/-- R8: `word(n)`, "the Word whose `uint` equals `n mod 2^32`". -/
def wordOf (n : Int) : Word := BitVec.ofInt 32 n

/-! ### Registers (R10, R20, R21) -/

/-- R10: `x[i]`. Every register, register 0 too, is read as it was last written (R21). -/
def State.readReg (s : State) (i : RegNum) : Word := s.regs[i]

/-- R10: `x[i] <- v`. Register 0 is written like any other (R21). -/
def State.writeReg (s : State) (i : RegNum) (v : Word) : State := { s with regs := s.regs.set i.val v i.isLt }

/-! ### Memory (R50 to R57) -/

/-- The byte in cell `k`; a cell the list does not name reads as `Config.unlistedByte`. -/
def Memory.readCell : Memory → Nat → Byte
  | [], _ => Config.unlistedByte
  | (k', v) :: m, k => if k < k' then Config.unlistedByte else if k = k' then v else Memory.readCell m k

/-- The memory with `b` in cell `k`, in canonical form again. -/
def Memory.writeCell : Memory → Nat → Byte → Memory
  | [], k, b => if b = Config.unlistedByte then [] else [(k, b)]
  | (k', v) :: m, k, b =>
    if k < k' then (if b = Config.unlistedByte then (k', v) :: m else (k, b) :: (k', v) :: m)
    else if k = k' then (if b = Config.unlistedByte then m else (k, b) :: m)
    else (k', v) :: Memory.writeCell m k b

/-- The cells from `low` on are listed in rising order, each below `Config.memCells` and none at the value an unlisted
cell has. -/
def Memory.wfFrom : Nat → Memory → Bool
  | _, [] => true
  | low, (k, v) :: m => decide (low ≤ k) && decide (k < Config.memCells) && (v != Config.unlistedByte) && Memory.wfFrom (k + 1) m

/-- The canonical form: equal memories are equal lists. -/
def Memory.wf (m : Memory) : Bool := Memory.wfFrom 0 m

/-- The byte of `w` that lies `i` cells above its first cell: the low byte first (notes/assumptions/1.md). -/
def byteOfWord (w : Word) (i : Nat) : Byte := w.extractLsb' (8 * i) 8

/-- The Word whose four bytes are given, the low byte first. -/
def wordOfBytes (b0 b1 b2 b3 : Byte) : Word := b3 ++ b2 ++ b1 ++ b0

/-- R57: `MemRead(a, 1)`. -/
def Memory.readWord (m : Memory) (a : Nat) : Word :=
  wordOfBytes (m.readCell (4 * a)) (m.readCell (4 * a + 1)) (m.readCell (4 * a + 2)) (m.readCell (4 * a + 3))

/-- R57: `MemWrite(a, 1, v)`. -/
def Memory.writeWord (m : Memory) (a : Nat) (v : Word) : Memory :=
  (((m.writeCell (4 * a) (byteOfWord v 0)).writeCell (4 * a + 1) (byteOfWord v 1)).writeCell (4 * a + 2)
    (byteOfWord v 2)).writeCell (4 * a + 3) (byteOfWord v 3)

/-- `MemRead` on the block's memory. -/
def State.memRead (s : State) (a : Nat) : Word := s.mem.readWord a

/-- `MemWrite` on the block's memory. -/
def State.memWrite (s : State) (a : Nat) (v : Word) : State := { s with mem := s.mem.writeWord a v }

/-! ### Faults (R210 to R213) -/

/-- R213: `raise F(info)` "sets `runState <- Faulted(F)` with `info`". Nothing else changes: there is no handler, vector
or saved state, and the writes made before it stay performed (R109). -/
def raise (kind : FaultKind) (s : State) : State := { s with runState := .faulted kind }

/-- R210, R242: the numeric code of a fault kind. -/
def FaultKind.code : FaultKind → Nat
  | .fetchOutOfRange _ => 1
  | .negativeAddress _ => 2
  | .memoryOutOfRange _ => 3
  | .unrecognizedOpcode => 4
  | .runtimeBudgetExceeded _ => 5
  | .malformedMemoryRecord => 6
  | .imageTooLarge => 7

/-- R210: the value a fault records, where it records one. -/
def FaultKind.info : FaultKind → Option Int
  | .fetchOutOfRange pc => some pc
  | .negativeAddress value => some value
  | .memoryOutOfRange ea => some ea
  | .unrecognizedOpcode => none
  | .runtimeBudgetExceeded instCount => some instCount
  | .malformedMemoryRecord => none
  | .imageTooLarge => none

/-- R212: the faulting instruction's address, computed from `pc`: `pc - 1` for a fault raised in an instruction body,
`pc` for a fetch fault. R212 gives none for the fuse or for a load error. -/
def State.faultingAddress (s : State) : Option Int :=
  match s.runState with
  | .running => none
  | .halted => none
  | .faulted (.fetchOutOfRange _) => some s.pc
  | .faulted (.negativeAddress _) => some (s.pc - 1)
  | .faulted (.memoryOutOfRange _) => some (s.pc - 1)
  | .faulted .unrecognizedOpcode => none
  | .faulted (.runtimeBudgetExceeded _) => none
  | .faulted .malformedMemoryRecord => none
  | .faulted .imageTooLarge => none

/-! ### The parts of the cycle (R100 to R107) -/

/-- R101: `pc` is inside the fetch range `[0, loadedWordCount)`. -/
abbrev State.InFetchRange (s : State) : Prop := 0 ≤ s.pc ∧ s.pc < (s.loadedWordCount.val : Int)

/-- R101: the Word the step fetches, or none where the fetch faults. -/
def State.fetch (s : State) : Option Word := if s.InFetchRange then some (s.memRead s.pc.toNat) else none

/-- R103: `pc <- pc + 1`, before the instruction body runs. -/
def advance (s : State) : State := { s with pc := s.pc + 1 }

/-- R106: `instCount <- instCount + 1`. -/
def count (s : State) : State := { s with instCount := s.instCount + 1 }

/-- R107: a ceiling `some B` is reached when `instCount >= B`. -/
def State.budgetReached (s : State) : Bool :=
  match s.instBudget with
  | none => false
  | some b => decide (b ≤ s.instCount)

/-- R107: while still `Running`, a reached ceiling raises `RuntimeBudgetExceeded`. -/
def fuse (s : State) : State :=
  match s.runState with
  | .running => if s.budgetReached then raise (.runtimeBudgetExceeded s.instCount) s else s
  | .halted => s
  | .faulted _ => s

/-- R104, R106, R107: what follows the body. A body that raised a fault ends the step at once; otherwise the
instruction is counted and the fuse looked at. -/
def finish (s : State) : State :=
  match s.runState with
  | .running => fuse (count s)
  | .halted => fuse (count s)
  | .faulted _ => s

/-- `finish` after a body that answered a next state; a stop stays that stop. -/
def complete (o : Host.Outcome State Fault Refusal) : Host.Outcome State Fault Refusal :=
  match o with
  | .next s => .next (finish s)
  | .fault r => .fault r
  | .refused r => .refused r

end Sys2Proof.Machine
end

