-- ==== Sys2Proof/Machine/Flags.lean ====
section
/-! DEFINITION. The block has no flags, condition codes or predicate registers (R28), and no instruction computes one.
The one condition of the machine is the comparison `beq` makes of two registers (R140). -/

namespace Sys2Proof.Machine

/-- R140: `x[regA] = x[regB]`, "equality of the 32-bit Words". -/
def regsEqual (s : State) (regA regB : RegNum) : Bool := s.readReg regA == s.readReg regB

end Sys2Proof.Machine
end

