-- ==== Sys2Proof/Machine/Operands.lean ====
section
/-! DEFINITION. The operand forms of rule R79 (spec/30_encoding.md): a register, and base register plus sign-extended
offset; the data-address check of R56; and the register access table of R22. -/

namespace Sys2Proof.Machine

/-- R9: `sint16(v)`, the value of a 16-bit field in `[-32768, 32767]`. -/
def sint16 (v : Offset) : Int := v.toInt

/-- R9: `sext_32(v)`, the Word `word(sint16(v))`. -/
def sext32 (v : Offset) : Word := wordOf (sint16 v)

/-- R9: `zext_32(v)`. -/
def zext32 (v : Offset) : Word := v.setWidth 32

/-- spec/42_i_type.md: `EA = sint(x[regA]) + sint16(offset)`, an exact integer with no wrap (D7). -/
def effectiveAddress (s : State) (regA : RegNum) (offset : Offset) : Int := sint (s.readReg regA) + sint16 offset

/-- R56: the checked word address of a data access, or the fault to raise; `EA < 0` is tested first (R216). -/
def checkAddress (ea : Int) : Except FaultKind Nat :=
  if ea < 0 then .error (.negativeAddress ea)
  else if (Config.memWords : Int) ≤ ea then .error (.memoryOutOfRange ea)
  else .ok ea.toNat

/-- R22: the registers an instruction reads. -/
def regsRead : Instr → List RegNum
  | .add regA regB _ => [regA, regB]
  | .nor regA regB _ => [regA, regB]
  | .lw regA _ _ => [regA]
  | .sw regA regB _ => [regA, regB]
  | .beq regA regB _ => [regA, regB]
  | .jalr regA _ => [regA]
  | .halt => []
  | .noop => []

/-- R22: the register an instruction writes, if any. -/
def regWritten : Instr → Option RegNum
  | .add _ _ destReg => some destReg
  | .nor _ _ destReg => some destReg
  | .lw _ regB _ => some regB
  | .sw _ _ _ => none
  | .beq _ _ _ => none
  | .jalr _ regB => some regB
  | .halt => none
  | .noop => none

end Sys2Proof.Machine
end

