-- ==== Sys2Proof/Machine/IType.lean ====
section
/-! DEFINITION. The I-type instructions (spec/42_i_type.md) and the checked change of `pc` that `beq` and `jalr` share.
`pc` is already the instruction's address plus 1 (R103). -/

namespace Sys2Proof.Machine

/-- R140, R150: `if t < 0: raise NegativeAddressFault(t)`, else `pc <- t`. A target beyond the loaded range does not
fault here. -/
def jumpTo (t : Int) (s : State) : State := if t < 0 then raise (.negativeAddress t) s else { s with pc := t }

/-- R130, `lw`: the base is read before the destination is written; on a fault no register is written. -/
def execLw (regA regB : RegNum) (offset : Offset) (s : State) : Host.Outcome State Fault Refusal :=
  match checkAddress (effectiveAddress s regA offset) with
  | .error kind => .next (raise kind s)
  | .ok a => .next (s.writeReg regB (s.memRead a))

/-- R135, `sw`: on a fault memory is not written. -/
def execSw (regA regB : RegNum) (offset : Offset) (s : State) : Host.Outcome State Fault Refusal :=
  match checkAddress (effectiveAddress s regA offset) with
  | .error kind => .next (raise kind s)
  | .ok a => .next (s.memWrite a (s.readReg regB))

/-- R140, `beq`: a branch that is not taken cannot fault. -/
def execBeq (regA regB : RegNum) (offset : Offset) (s : State) : Host.Outcome State Fault Refusal :=
  .next (if regsEqual s regA regB then jumpTo (s.pc + sint16 offset) s else s)

end Sys2Proof.Machine
end

