-- ==== Sys2Proof/Machine/JType.lean ====
section
/-! DEFINITION. The J-type instruction (spec/43_j_type.md). -/

namespace Sys2Proof.Machine

/-- R150, `jalr`: the target is read BEFORE the link is written, and the link is written before the target is checked,
so it stays written when the check raises. The link register is `regB` (90_conflicts.md C1). -/
def execJalr (regA regB : RegNum) (s : State) : Host.Outcome State Fault Refusal :=
  .next (jumpTo (sint (s.readReg regA)) (s.writeReg regB (wordOf s.pc)))

end Sys2Proof.Machine
end

