-- ==== Sys2Proof/Machine/OType.lean ====
section
/-! DEFINITION. The O-type instructions (spec/44_o_type.md). -/

namespace Sys2Proof.Machine

/-- R160, `halt`: `runState <- Halted`. -/
def execHalt (s : State) : Host.Outcome State Fault Refusal := .next { s with runState := .halted }

/-- R165, `noop`: no change beyond the advance already applied. -/
def execNoop (s : State) : Host.Outcome State Fault Refusal := .next s

end Sys2Proof.Machine
end

