-- ==== Sys2Proof/Machine/RType.lean ====
section
/-! DEFINITION. The R-type instructions (spec/41_r_type.md). Each meaning is the body of its rule: it runs after the
fetch, the decode and the advance of R101 to R103. -/

namespace Sys2Proof.Machine

/-- R120: the sum modulo 2^32, `word(uint(a) + uint(b))` (D2). -/
def addWords (a b : Word) : Word := wordOf (uint a + uint b)

/-- R125: `~(a | b)`, all 32 bits. -/
def norWords (a b : Word) : Word := ~~~(a ||| b)

/-- R120, `add`: both sources are read before the destination is written. -/
def execAdd (regA regB destReg : RegNum) (s : State) : Host.Outcome State Fault Refusal :=
  .next (s.writeReg destReg (addWords (s.readReg regA) (s.readReg regB)))

/-- R125, `nor`: both sources are read before the destination is written. -/
def execNor (regA regB destReg : RegNum) (s : State) : Host.Outcome State Fault Refusal :=
  .next (s.writeReg destReg (norWords (s.readReg regA) (s.readReg regB)))

end Sys2Proof.Machine
end

