-- ==== Sys2Proof/Machine/Dispatch.lean ====
section
/-! DEFINITION. R104: the body of each instruction, at a state whose `pc` has already advanced (R103,
notes/assumptions/11.md). -/

namespace Sys2Proof.Machine

/-- R104: runs the body of the selected instruction. -/
def exec (i : Instr) (s : State) : Host.Outcome State Fault Refusal :=
  match i with
  | .add regA regB destReg => Sys2Proof.Machine.execAdd regA regB destReg s
  | .nor regA regB destReg => Sys2Proof.Machine.execNor regA regB destReg s
  | .lw regA regB offset => Sys2Proof.Machine.execLw regA regB offset s
  | .sw regA regB offset => Sys2Proof.Machine.execSw regA regB offset s
  | .beq regA regB offset => Sys2Proof.Machine.execBeq regA regB offset s
  | .jalr regA regB => Sys2Proof.Machine.execJalr regA regB s
  | .halt => Sys2Proof.Machine.execHalt s
  | .noop => Sys2Proof.Machine.execNoop s

end Sys2Proof.Machine
end

