-- ==== Sys2Proof/Machine/Step.lean ====
section
/-! DEFINITION. One step of the block, the pseudocode of rule R105 (spec/40_step.md). -/

namespace Sys2Proof.Machine

/-- R100, R105: a step exists only while `Running`. It fetches, decodes, advances, executes, counts and looks at the
fuse, as one transition (R41). -/
def step (s : State) : Host.Outcome State Fault Refusal :=
  match s.runState with
  | .halted => .fault .stepWhileHalted
  | .faulted kind => .fault (.stepWhileFaulted kind)
  | .running =>
    match s.fetch with
    | none => .next (raise (.fetchOutOfRange s.pc) s)
    | some w => complete (exec (decode w) (advance s))

/-- The word address the next step can fetch from: `pc` where it is an address of memory, else 0. -/
def State.fetchSlot (s : State) : Nat := if 0 ≤ s.pc ∧ s.pc < (Config.memWords : Int) then s.pc.toNat else 0

/-- `s` with the table's word placed where the next step fetches, so that this step runs exactly it: the slot is inside
the loaded range and the block is `Running` (notes/assumptions/10.md). -/
def State.withFetchWord (s : State) (nbits w : Nat) : State :=
  { s with
    pc := (s.fetchSlot : Int)
    mem := s.mem.writeWord s.fetchSlot (tableWord nbits w)
    loadedWordCount := Fin.ofNat 65537 (max s.loadedWordCount.val (s.fetchSlot + 1))
    runState := .running }

end Sys2Proof.Machine
end

