-- ==== Sys2Proof/Machine/Numeral.lean ====
section
/-! DEFINITION. Decimal text: the numeric token that an image record (R242) and an assembler operand (R178) share, and
the decimal string the assembler writes (R188). -/

namespace Sys2Proof.Machine

/-- A decimal digit character, `0` to `9` (notes/assumptions/14.md). -/
def isDecimalDigit (c : Char) : Bool := decide (48 ≤ c.toNat) && decide (c.toNat ≤ 57)

/-- The value of the digits read so far, carried on over the rest; none at the first character that is no digit. -/
def digitsFrom (acc : Nat) : Token → Option Nat
  | [] => some acc
  | c :: cs => if isDecimalDigit c then digitsFrom (10 * acc + (c.toNat - 48)) cs else none

/-- R179: "one or more decimal digits (no sign)", with their base-10 value. -/
def parseDigits : Token → Option Nat
  | [] => none
  | c :: cs => digitsFrom 0 (c :: cs)

/-- R178, R242: "an optional `+` or `-` followed by one or more decimal digits and nothing else". -/
def parseNumeral : Token → Option Int
  | [] => none
  | c :: cs =>
    if c = '-' then (parseDigits cs).map (fun n : Nat => -(n : Int))
    else if c = '+' then (parseDigits cs).map (fun n : Nat => (n : Int))
    else (parseDigits (c :: cs)).map (fun n : Nat => (n : Int))

/-- The numbers a 32-bit Word can hold as a signed integer: `[-2^31, 2^31 - 1]` (R185, R242). -/
def fitsSigned32 (v : Int) : Bool := decide (-2147483648 ≤ v) && decide (v ≤ 2147483647)

/-- The decimal digits of `n`, most significant first, put before `acc`; `fuel` bounds their number. -/
def renderDigits : Nat → Nat → Token → Token
  | 0, _, acc => acc
  | fuel + 1, n, acc =>
    if n < 10 then Char.ofNat (48 + n) :: acc else renderDigits fuel (n / 10) (Char.ofNat (48 + n % 10) :: acc)

/-- R188: the decimal string of an integer: `-` only where it is negative, no `+`, no leading zero
(notes/assumptions/15.md). -/
def renderDecimal (v : Int) : Token :=
  if v < 0 then '-' :: renderDigits (v.natAbs + 1) v.natAbs [] else renderDigits (v.natAbs + 1) v.natAbs []

end Sys2Proof.Machine
end

