-- ==== Sys2Proof/Machine/Assembler.lean ====
section
/-! DEFINITION. The assembler of spec/45_assembler.md, the toolchain that fixes the syntax and the bit packing (R4). It
is surrounding software and no part of the block: no meaning and no step uses it. The primitive that reads a line's
text into a record is outside the source (R5 (a), R171): the assembler starts from its records. -/

namespace Sys2Proof.Machine

/-- R189: the assembler's error kinds, each fatal. -/
inductive AsmError where
  | lineTooLong
  | duplicateLabel
  | undefinedLabel
  | invalidRegister
  | offsetRange
  | unsupportedOpcode
  | fillRange
  deriving DecidableEq, Repr

/-- R171: one source record `{label, opcode, arg0, arg1, arg2}`; a missing token is the empty token. -/
structure SourceRecord where
  label : Token
  opcode : Token
  arg0 : Token
  arg1 : Token
  arg2 : Token
  deriving DecidableEq, Repr

/-- R171: a record from its label and the tokens after it: "a missing one is the empty token", and tokens beyond those
the record holds are ignored (D23). -/
def SourceRecord.ofTokens (label : Token) (tokens : List Token) : SourceRecord where
  label := label
  opcode := tokens.getD 0 []
  arg0 := tokens.getD 1 []
  arg1 := tokens.getD 2 []
  arg2 := tokens.getD 3 []

/-- A source line as the record primitive gives it: its length in characters (R172), and its record, none for a blank
line (R173). -/
structure SourceLine where
  length : Nat
  record : Option SourceRecord
  deriving DecidableEq, Repr

/-- R173: the records of a source; a blank line is none and takes no address (90_conflicts.md C4). -/
def recordsOf : List SourceLine → List SourceRecord
  | [] => []
  | l :: ls =>
    match l.record with
    | some r => r :: recordsOf ls
    | none => recordsOf ls

/-! ### Pass 1: the symbol table (R174, R175) -/

/-- R174: the symbols `{name, address}` defined so far. -/
abbrev SymbolTable := List (Token × Nat)

/-- The address bound to a name, if any; names are compared as exact strings (D25). -/
def SymbolTable.find : SymbolTable → Token → Option Nat
  | [], _ => none
  | (n, a) :: t, name => if n = name then some a else SymbolTable.find t name

/-- R174: the record at address `i` defines its label, unless the label is empty. -/
def defineLabel (t : SymbolTable) (i : Nat) (r : SourceRecord) : Except AsmError SymbolTable :=
  if r.label = [] then .ok t
  else
    match t.find r.label with
    | some _ => .error .duplicateLabel
    | none => .ok (t ++ [(r.label, i)])

/-- R172, R174: pass 1 over the lines, the next record being at address `i`. A line's length is checked when it is read,
before its label (notes/assumptions/13.md). -/
def buildSymbols (maxLine : Nat) : SymbolTable → Nat → List SourceLine → Except AsmError SymbolTable
  | t, _, [] => .ok t
  | t, i, l :: ls =>
    if maxLine < l.length then .error .lineTooLong
    else
      match l.record with
      | none => buildSymbols maxLine t i ls
      | some r =>
        match defineLabel t i r with
        | .error e => .error e
        | .ok t' => buildSymbols maxLine t' (i + 1) ls

/-- R175: the address of the symbol, or `UndefinedLabelError`; no symbol has the empty name. -/
def resolve (t : SymbolTable) (name : Token) : Except AsmError Nat :=
  match t.find name with
  | some a => .ok a
  | none => .error .undefinedLabel

/-! ### Operands (R178, R179, R181, R182) -/

/-- R179: a register operand is decimal digits of value less than 8. -/
def parseRegister (token : Token) : Except AsmError RegNum :=
  match parseDigits token with
  | none => .error .invalidRegister
  | some n => if h : n < 8 then .ok ⟨n, h⟩ else .error .invalidRegister

/-- R181: the destination of an R-type instruction is a register other than 0. -/
def parseDestination (token : Token) : Except AsmError RegNum :=
  match parseRegister token with
  | .error e => .error e
  | .ok r => if r = 0 then .error .invalidRegister else .ok r

/-- R182: the offset's range check, and its low 16 bits. -/
def packOffset (o : Int) : Except AsmError Offset :=
  if o < -32768 ∨ 32767 < o then .error .offsetRange else .ok (BitVec.ofInt 16 o)

/-- R182, `lw` and `sw`: a number is the offset, and a label's address is the offset. -/
def absoluteOffset (t : SymbolTable) (token : Token) : Except AsmError Offset :=
  match parseNumeral token with
  | some o => packOffset o
  | none =>
    match resolve t token with
    | .error e => .error e
    | .ok a => packOffset a

/-- R182, `beq`: a number is the offset as given; a label at `k` gives `k - i - 1` from the record at address `i`. -/
def relativeOffset (t : SymbolTable) (i : Nat) (token : Token) : Except AsmError Offset :=
  match parseNumeral token with
  | some o => packOffset o
  | none =>
    match resolve t token with
    | .error e => .error e
    | .ok a => packOffset ((a : Int) - (i : Int) - 1)

/-- R185: the Word of a `.fill`: a number verbatim, or a label's address. -/
def fillWord (t : SymbolTable) (token : Token) : Except AsmError Word :=
  match parseNumeral token with
  | some v => if fitsSigned32 v then .ok (wordOf v) else .error .fillRange
  | none =>
    match resolve t token with
    | .error e => .error e
    | .ok a => .ok (wordOf a)

/-! ### Pass 2: encoding (R176, R181 to R187) -/

/-- R176: what an opcode token names. -/
inductive OpcodeToken where
  | add | nor | lw | sw | beq | jalr | halt | noop | fill
  deriving DecidableEq, Repr

/-- R176: the opcode token, by exact match; any other is unsupported. -/
def opcodeToken (token : Token) : Option OpcodeToken :=
  if token = "add".toList then some .add
  else if token = "nor".toList then some .nor
  else if token = "lw".toList then some .lw
  else if token = "sw".toList then some .sw
  else if token = "beq".toList then some .beq
  else if token = "jalr".toList then some .jalr
  else if token = "halt".toList then some .halt
  else if token = "noop".toList then some .noop
  else if token = ".fill".toList then some .fill
  else none

/-- R181, R187: the three operands of an R-type record, checked left to right. -/
def rTypeOperands (r : SourceRecord) : Except AsmError (RegNum × RegNum × RegNum) := do
  let regA ← parseRegister r.arg0
  let regB ← parseRegister r.arg1
  let destReg ← parseDestination r.arg2
  return (regA, regB, destReg)

/-- R182, R183, R187: the two register operands of an I-type or J-type record, checked left to right. -/
def twoRegisters (r : SourceRecord) : Except AsmError (RegNum × RegNum) := do
  let regA ← parseRegister r.arg0
  let regB ← parseRegister r.arg1
  return (regA, regB)

/-- R176 to R187: the Word of the record at address `i`: the opcode first, then the operands left to right; operand
tokens an opcode does not use are ignored (D23). -/
def encodeRecord (t : SymbolTable) (i : Nat) (r : SourceRecord) : Except AsmError Word :=
  match opcodeToken r.opcode with
  | none => .error .unsupportedOpcode
  | some .add => do
    let (regA, regB, destReg) ← rTypeOperands r
    return encode (.add regA regB destReg)
  | some .nor => do
    let (regA, regB, destReg) ← rTypeOperands r
    return encode (.nor regA regB destReg)
  | some .lw => do
    let (regA, regB) ← twoRegisters r
    let offset ← absoluteOffset t r.arg2
    return encode (.lw regA regB offset)
  | some .sw => do
    let (regA, regB) ← twoRegisters r
    let offset ← absoluteOffset t r.arg2
    return encode (.sw regA regB offset)
  | some .beq => do
    let (regA, regB) ← twoRegisters r
    let offset ← relativeOffset t i r.arg2
    return encode (.beq regA regB offset)
  | some .jalr => do
    let (regA, regB) ← twoRegisters r
    return encode (.jalr regA regB)
  | some .halt => .ok (encode .halt)
  | some .noop => .ok (encode .noop)
  | some .fill => fillWord t r.arg0

/-- R173, R188: pass 2 over the records, the first of them at address `i`. -/
def encodeRecords (t : SymbolTable) : Nat → List SourceRecord → Except AsmError (List Word)
  | _, [] => .ok []
  | i, r :: rs => do
    let w ← encodeRecord t i r
    let ws ← encodeRecords t (i + 1) rs
    return w :: ws

/-- R188: both passes; every error of pass 1 is found before any record is encoded, and a failure gives no output
(notes/assumptions/15.md). -/
def assemble (maxLine : Nat) (lines : List SourceLine) : Except AsmError (List Word) := do
  let t ← buildSymbols maxLine [] 0 lines
  encodeRecords t 0 (recordsOf lines)

/-- R188: one output line per Word, "the decimal string of the signed 32-bit instruction word". -/
def outputLines : List Word → List Token
  | [] => []
  | w :: ws => renderDecimal (sint w) :: outputLines ws

end Sys2Proof.Machine
end

