-- ==== Sys2Proof/Machine/Image.lean ====
section
/-! DEFINITION. The block operation `load(image)` of rule R40 (spec/10_state.md): the reset of rules R240 to R243
(spec/70_reset_and_hazards.md). An image is its sequence of records, each the characters of one line. -/

namespace Sys2Proof.Machine

/-- R242: the value of a record, or none where the record is malformed or its value lies outside `[-2^31, 2^31 - 1]`. -/
def recordValue (record : Token) : Option Int :=
  match parseNumeral record with
  | none => none
  | some v => if fitsSigned32 v then some v else none

/-- R240: the Words `word(v_i)` of the records, or none where some record is malformed. -/
def imageWords : List Token → Option (List Word)
  | [] => some []
  | r :: rs =>
    match recordValue r, imageWords rs with
    | some v, some ws => some (wordOf v :: ws)
    | _, _ => none

/-- R240: the memory with the Words placed from address `a` upward. -/
def Memory.placeWords (m : Memory) (a : Nat) : List Word → Memory
  | [] => m
  | w :: ws => Memory.placeWords (m.writeWord a w) (a + 1) ws

/-- R240, R243: the block after a successful load of the Words `ws`. Memory beyond them is `unloadedInit`, the Word 0. -/
def loadedState (ws : List Word) (instBudget : Option Nat) : State where
  regs := Vector.replicate 8 0#32
  pc := 0
  mem := Memory.placeWords [] 0 ws
  loadedWordCount := Fin.ofNat 65537 ws.length
  instCount := 0
  runState := .running
  instBudget := instBudget

/-- R242: the load error of an image, if any. Where both conditions hold the spec does not say which kind is reported:
the free value `Config.tooLargeReportedFirst` decides (notes/assumptions/9.md). -/
def loadError (image : List Token) : Option FaultKind :=
  match imageWords image with
  | some _ => if Config.memWords < image.length then some .imageTooLarge else none
  | none =>
    if Config.memWords < image.length then
      (if Config.tooLargeReportedFirst then some .imageTooLarge else some .malformedMemoryRecord)
    else some .malformedMemoryRecord

/-- R40, R240 to R242: `load(image)`. It depends on no earlier state. After a failed load only `runState` is specified
(R242): the rest is that of `unspecified`, an argument, so that no claim can rest on it (notes/assumptions/8.md). -/
def load (image : List Token) (instBudget : Option Nat) (unspecified : State) : State :=
  match loadError image with
  | some kind => raise kind unspecified
  | none => loadedState ((imageWords image).getD []) instBudget

end Sys2Proof.Machine
end

