-- ==== Sys2Proof/Machine/Observe.lean ====
section
/-! DEFINITION. The block operation `observe()` of rule R42 (spec/10_state.md). -/

namespace Sys2Proof.Machine

/-- R42: what `observe()` returns. -/
structure Observation where
  runState : RunState
  pc : Int
  /-- `x[0..7]`. -/
  regs : Vector Word 8
  /-- `memory[0..65535]`, the Word at address `a` at position `a`. -/
  memory : List Word
  loadedWordCount : Nat
  instCount : Nat
  deriving DecidableEq, Repr

/-- The first `n` Words of a memory, from address `a` on. -/
def Memory.wordsFrom (m : Memory) : Nat → Nat → List Word
  | _, 0 => []
  | a, n + 1 => m.readWord a :: Memory.wordsFrom m (a + 1) n

/-- R42: `observe()`, which changes no state. -/
def State.observe (s : State) : Observation where
  runState := s.runState
  pc := s.pc
  regs := s.regs
  memory := s.mem.wordsFrom 0 Config.memWords
  loadedWordCount := s.loadedWordCount.val
  instCount := s.instCount

end Sys2Proof.Machine
end

