-- ==== Sys2Proof/Machine/Run.lean ====
section
/-! DEFINITION. Runs of the block (rule R110 of spec/40_step.md), what a run reports, and the trace the host sees of it
(rule R226 of spec/60_exceptions.md). -/

namespace Sys2Proof.Machine

/-- R110: a run goes from state to state by steps; `Reaches s t` when some number of them leads from `s` to `t`. -/
inductive Reaches (s : State) : State → Prop where
  | refl : Reaches s s
  | tail (t u : State) (first : Reaches s t) (last : step t = .next u) : Reaches s u

/-- R110: "A run ends successfully exactly when `runState = Halted`"; the result it reports is `observe()` there, and a
run that ends `Faulted` has no result. -/
def State.runResult (s : State) : Option Observation :=
  match s.runState with
  | .running => none
  | .halted => some s.observe
  | .faulted _ => none

/-- R226: the trace of at most `n` steps, `observe()` before every `step()` and after the last. -/
def traceOf : Nat → State → List Observation
  | 0, s => [s.observe]
  | n + 1, s =>
    match step s with
    | .next t => s.observe :: traceOf n t
    | .fault _ => [s.observe]
    | .refused _ => [s.observe]

end Sys2Proof.Machine
end

