-- ==== Sys2Proof/Safety.lean ====
section
/-! DEFINITION. When a block is safe, the invariant every step keeps, and the words the statements
say frames in. -/

namespace Sys2Proof.Machine

/-- No fault has stopped the block (R213): what a safe run keeps. -/
def State.NotFaulted (s : State) : Prop := ∀ kind, s.runState ≠ .faulted kind

/-- R24: while `Running`, `0 <= pc`, and no more than the largest value `pc` can take. -/
def State.PcInRange (s : State) : Prop := s.runState = .running → 0 ≤ s.pc ∧ s.pc ≤ 2147483647

/-- R31, R107: with a ceiling `B` of at least 1, `instCount` never exceeds `B`, and while `Running` it is below `B`. -/
def State.WithinBudget (s : State) : Prop :=
  ∀ b, s.instBudget = some b → 1 ≤ b → s.instCount ≤ b ∧ (s.runState = .running → s.instCount < b)

/-- The invariant: canonical memory, `pc` in range, and the counter within the ceiling. -/
structure State.Inv (s : State) : Prop where
  memory : s.mem.wf = true
  pc : s.PcInRange
  budget : s.WithinBudget

/-- Every register outside `written` holds what it held. -/
def SameRegsExcept (written : List RegNum) (s t : State) : Prop := ∀ r, r ∉ written → t.readReg r = s.readReg r

/-- Every memory cell reads as before. -/
def SameMemory (s t : State) : Prop := ∀ k, t.mem.readCell k = s.mem.readCell k

/-- Every memory cell outside the Word at address `a` reads as before. -/
def SameMemoryOutside (a : Nat) (s t : State) : Prop :=
  ∀ k, k < 4 * a ∨ 4 * a + 4 ≤ k → t.mem.readCell k = s.mem.readCell k

/-- The loaded-word count, the executed-instruction counter and the fuse's ceiling are as before. -/
def SameCounters (s t : State) : Prop :=
  t.loadedWordCount = s.loadedWordCount ∧ t.instCount = s.instCount ∧ t.instBudget = s.instBudget

end Sys2Proof.Machine
end

