-- ==== Sys2Proof/Certificates/Slice0/Obligations.lean ====
section
/-! DEFINITION. The statements for the provers, from the numbered rules of spec/. A statement about `exec` is about the
instruction BODY: its state `s` has already advanced, so `s.pc` is the address of the instruction plus 1 (R103). -/

open Sys2Proof Sys2Proof.Machine

/-! ### Encoding -/

/-- R85 (its I-type and J-type sentence is derived in the spec), and R82 for the two instructions without operands:
encoding and then decoding gives every operand back, for all instructions and all operands (`destReg = 0` too). -/
def Obligations.DecodeInvertsEncode : Prop := ∀ i : Instr, decode (encode i) = i

/-- R82, R84, R186: encoding what was decoded gives the Word with its ignored bits cleared, and no other change. The
masks are written out; the instruction's shape picks the mask. -/
def Obligations.EncodeOfDecodeClearsOnlyIgnoredBits : Prop :=
  ∀ w : Word,
    match decode w with
    | .add _ _ _ => encode (decode w) = w &&& 0x01FF0007#32
    | .nor _ _ _ => encode (decode w) = w &&& 0x01FF0007#32
    | .lw _ _ _ => encode (decode w) = w &&& 0x01FFFFFF#32
    | .sw _ _ _ => encode (decode w) = w &&& 0x01FFFFFF#32
    | .beq _ _ _ => encode (decode w) = w &&& 0x01FFFFFF#32
    | .jalr _ _ => encode (decode w) = w &&& 0x01FF0000#32
    | .halt => encode (decode w) = w &&& 0x01C00000#32
    | .noop => encode (decode w) = w &&& 0x01C00000#32

/-- R82: a Word with any value in the bits its format does not use executes exactly as the Word with zeros there; and
the encoding of an instruction has zeros there. -/
def Obligations.IgnoredBitsHaveNoEffect : Prop :=
  (∀ (w : Word) (s : State), exec (decode (w &&& 0x01FFFFFF#32)) s = exec (decode w) s) ∧
  (∀ (w : Word) (s : State), w &&& 0x01C00000#32 = 0x00000000#32 ∨ w &&& 0x01C00000#32 = 0x00400000#32 →
    exec (decode (w &&& 0x01FF0007#32)) s = exec (decode w) s) ∧
  (∀ (w : Word) (s : State), w &&& 0x01C00000#32 = 0x01400000#32 →
    exec (decode (w &&& 0x01FF0000#32)) s = exec (decode w) s) ∧
  (∀ (w : Word) (s : State), w &&& 0x01C00000#32 = 0x01800000#32 ∨ w &&& 0x01C00000#32 = 0x01C00000#32 →
    exec (decode (w &&& 0x01C00000#32)) s = exec (decode w) s) ∧
  (∀ i : Instr, encode i &&& ~~~i.decodedBits = 0#32)

/-- R74, R80: the instruction each match value of the opcode map names, with the fields of R74 as arithmetic on the
Word's value. -/
def Obligations.DecodeFollowsOpcodeMap : Prop :=
  ∀ (w : Word) (a b d : RegNum) (o : Offset),
    a.val = w.toNat / 2 ^ 19 % 8 → b.val = w.toNat / 2 ^ 16 % 8 → d.val = w.toNat % 8 → o.toNat = w.toNat % 2 ^ 16 →
    (w &&& 0x01C00000#32 = 0x00000000#32 → decode w = .add a b d) ∧
    (w &&& 0x01C00000#32 = 0x00400000#32 → decode w = .nor a b d) ∧
    (w &&& 0x01C00000#32 = 0x00800000#32 → decode w = .lw a b o) ∧
    (w &&& 0x01C00000#32 = 0x00C00000#32 → decode w = .sw a b o) ∧
    (w &&& 0x01C00000#32 = 0x01000000#32 → decode w = .beq a b o) ∧
    (w &&& 0x01C00000#32 = 0x01400000#32 → decode w = .jalr a b) ∧
    (w &&& 0x01C00000#32 = 0x01800000#32 → decode w = .halt) ∧
    (w &&& 0x01C00000#32 = 0x01C00000#32 → decode w = .noop)

/-- R84: the canonical Words as sums, and their bound `0 <= sint(w) < 2^25`. -/
def Obligations.CanonicalWordFormulas : Prop :=
  (∀ a b d : RegNum, (encode (.add a b d)).toNat = 0 * 2 ^ 22 + a.val * 2 ^ 19 + b.val * 2 ^ 16 + d.val) ∧
  (∀ a b d : RegNum, (encode (.nor a b d)).toNat = 1 * 2 ^ 22 + a.val * 2 ^ 19 + b.val * 2 ^ 16 + d.val) ∧
  (∀ (a b : RegNum) (o : Offset),
    ((encode (.lw a b o)).toNat : Int) = 2 * 2 ^ 22 + a.val * 2 ^ 19 + b.val * 2 ^ 16 + sint16 o % 2 ^ 16) ∧
  (∀ (a b : RegNum) (o : Offset),
    ((encode (.sw a b o)).toNat : Int) = 3 * 2 ^ 22 + a.val * 2 ^ 19 + b.val * 2 ^ 16 + sint16 o % 2 ^ 16) ∧
  (∀ (a b : RegNum) (o : Offset),
    ((encode (.beq a b o)).toNat : Int) = 4 * 2 ^ 22 + a.val * 2 ^ 19 + b.val * 2 ^ 16 + sint16 o % 2 ^ 16) ∧
  (∀ a b : RegNum, (encode (.jalr a b)).toNat = 5 * 2 ^ 22 + a.val * 2 ^ 19 + b.val * 2 ^ 16) ∧
  (encode .halt).toNat = 6 * 2 ^ 22 ∧
  (encode .noop).toNat = 7 * 2 ^ 22 ∧
  (∀ i : Instr, 0 ≤ sint (encode i) ∧ sint (encode i) < 2 ^ 25)

/-- Words of spec/95_test_vectors.md, one for each instruction, decode to the instructions they stand for there. -/
def Obligations.SpecWordsDecode : Prop :=
  decode 0x000A0003#32 = .add 1 2 3 ∧ decode 0x00490002#32 = .nor 1 1 2 ∧ decode 0x008AFFFF#32 = .lw 1 2 (-1) ∧
  decode 0x00C20009#32 = .sw 0 2 9 ∧ decode 0x0100FFFD#32 = .beq 0 0 (-3) ∧ decode 0x01670000#32 = .jalr 4 7 ∧
  decode 0xFF800000#32 = .halt ∧ decode 0xFFFFFFFF#32 = .noop

/-! ### The step -/

/-- R100: a step exists exactly while `Running`; `Halted` and `Faulted` have none. -/
def Obligations.StepExistsExactlyWhileRunning : Prop :=
  ∀ s : State, (∃ t, step s = .next t) ↔ s.runState = .running

/-- THE MODEL'S OWN FORM for "no step" (notes/assumptions/4.md): a `step` asked for in a terminal state answers a fault
named after that state, and no step is ever refused. -/
def Obligations.StoppedBlockAnswersNamedFault : Prop :=
  (∀ s : State, s.runState = .halted → step s = .fault .stepWhileHalted) ∧
  (∀ (s : State) (kind : FaultKind), s.runState = .faulted kind → step s = .fault (.stepWhileFaulted kind)) ∧
  (∀ (s : State) (r : Refusal), step s ≠ .refused r)

/-- R101: the fetch fault, and the Word fetched where there is none. -/
def Obligations.FetchIsBoundedByLoadedRange : Prop :=
  (∀ s : State, s.runState = .running → (s.pc < 0 ∨ (s.loadedWordCount.val : Int) ≤ s.pc) →
    step s = .next { s with runState := .faulted (.fetchOutOfRange s.pc) }) ∧
  (∀ s : State, 0 ≤ s.pc → s.pc < (s.loadedWordCount.val : Int) → s.fetch = some (s.mem.readWord s.pc.toNat))

/-- R102, R103, R104, R106: while `Running` and inside the fetch range, a step is the body of the decoded instruction
at the state with `pc` advanced; a body that faulted ends the step uncounted, and any other is counted. The fuse (R107)
then faults a block that still runs and has reached its ceiling. -/
def Obligations.StepRunsDecodedInstruction : Prop :=
  ∀ (s t : State) (i : Instr), s.runState = .running → 0 ≤ s.pc → s.pc < (s.loadedWordCount.val : Int) →
    decode (s.mem.readWord s.pc.toNat) = i → exec i { s with pc := s.pc + 1 } = .next t →
    (∀ kind, t.runState = .faulted kind → step s = .next t) ∧
    (t.runState = .halted → step s = .next { t with instCount := t.instCount + 1 }) ∧
    (∀ b, t.runState = .running → t.instBudget = some b → b ≤ t.instCount + 1 →
      step s = .next { t with instCount := t.instCount + 1, runState := .faulted (.runtimeBudgetExceeded (t.instCount + 1)) }) ∧
    (∀ b, t.runState = .running → t.instBudget = some b → t.instCount + 1 < b →
      step s = .next { t with instCount := t.instCount + 1 }) ∧
    (t.runState = .running → t.instBudget = none → step s = .next { t with instCount := t.instCount + 1 })

/-- R106, R31: over one step, `instCount` goes up by 1 when the body completed without a fault (`halt` and an
instruction after which the fuse fires included), and stays when the fetch or the body faulted. -/
def Obligations.StepCountsCompletedInstructions : Prop :=
  ∀ s t : State, step s = .next t →
    (t.runState = .running ∨ t.runState = .halted ∨ (∃ c, t.runState = .faulted (.runtimeBudgetExceeded c)) →
      t.instCount = s.instCount + 1) ∧
    (∀ kind, t.runState = .faulted kind → (∀ c, kind ≠ .runtimeBudgetExceeded c) → t.instCount = s.instCount)

/-- R107: the fuse. A step that leaves the block `Running` is below the ceiling; the fault records `instCount`, which
has reached the ceiling; with no ceiling the fault never comes; a `halt` at the ceiling ends `Halted`. -/
def Obligations.FuseFiresExactlyAtCeiling : Prop :=
  (∀ (s t : State) (b : Nat), step s = .next t → s.instBudget = some b → t.runState = .running → t.instCount < b) ∧
  (∀ (s t : State) (c : Nat), step s = .next t → t.runState = .faulted (.runtimeBudgetExceeded c) →
    c = t.instCount ∧ ∃ b, s.instBudget = some b ∧ b ≤ c) ∧
  (∀ (s t : State) (c : Nat), step s = .next t → s.instBudget = none →
    t.runState ≠ .faulted (.runtimeBudgetExceeded c)) ∧
  (∀ s : State, s.runState = .running → 0 ≤ s.pc → s.pc < (s.loadedWordCount.val : Int) →
    decode (s.mem.readWord s.pc.toNat) = .halt → ∃ t, step s = .next t ∧ t.runState = .halted)

/-- R107: with a ceiling `B` of at least 1, a run from any loaded image executes at most `B` instructions. (At `B = 0`
the pseudocode of R105 runs one: notes/assumptions/7.md.) -/
def Obligations.RunExecutesAtMostBudget : Prop :=
  ∀ (image : List Token) (b : Nat) (junk s : State), loadError image = none → 1 ≤ b →
    Reaches (load image (some b) junk) s → s.instCount ≤ b

/-- R24: at every step boundary while `Running`, `pc` is not negative and at most `2^31 - 1`, whatever the state the
step began in. -/
def Obligations.RunningPcStaysInRange : Prop :=
  ∀ s t : State, step s = .next t → t.runState = .running → 0 ≤ t.pc ∧ t.pc ≤ 2 ^ 31 - 1

/-- Every step keeps the invariant: memory in canonical form (the model's own, notes/assumptions/1.md), `pc` in range
while `Running`, the counter within the ceiling (where that is at least 1, notes/assumptions/7.md). -/
def Obligations.StepKeepsInvariant : Prop := ∀ s t : State, s.Inv → step s = .next t → t.Inv

/-- The invariant holds right after reset. -/
def Obligations.ResetMeetsInvariant : Prop := State.reset.Inv

/-- The invariant holds after every successful load, whatever the ceiling. -/
def Obligations.LoadMeetsInvariant : Prop :=
  ∀ (image : List Token) (budget : Option Nat) (junk : State), loadError image = none → (load image budget junk).Inv

/-- R32: `loadedWordCount` is read-only after the load; and the parameter `instBudget` is no step's to change. -/
def Obligations.StepKeepsLoadedWordCount : Prop :=
  ∀ s t : State, step s = .next t → t.loadedWordCount = s.loadedWordCount ∧ t.instBudget = s.instBudget

/-- R211 (derived in the spec from the bodies' rules): which faults there are: a step's fault is the fetch's, the fuse's (not after a `halt`) or its body's; and of the
bodies, from a block that is `Running`, `add`, `nor`, `halt`, `noop` none; `lw`, `sw` the
two address faults with the effective address; `beq` only where taken; `jalr` only a negative target. -/
def Obligations.FaultsAreThoseListed : Prop :=
  (∀ (s t : State) (kind : FaultKind), step s = .next t → t.runState = .faulted kind →
    (¬ s.InFetchRange ∧ kind = .fetchOutOfRange s.pc) ∨
    (s.InFetchRange ∧ kind = .runtimeBudgetExceeded t.instCount ∧ decode (s.mem.readWord s.pc.toNat) ≠ .halt) ∨
    (s.InFetchRange ∧ ∃ u, exec (decode (s.mem.readWord s.pc.toNat)) (advance s) = .next u ∧ u.runState = .faulted kind)) ∧
  (∀ (i : Instr) (s t : State) (kind : FaultKind), s.runState = .running → exec i s = .next t → t.runState = .faulted kind →
    match i with
    | .add _ _ _ => False
    | .nor _ _ _ => False
    | .lw a _ o =>
      (kind = .negativeAddress (sint (s.readReg a) + sint16 o) ∧ sint (s.readReg a) + sint16 o < 0) ∨
      (kind = .memoryOutOfRange (sint (s.readReg a) + sint16 o) ∧ 65536 ≤ sint (s.readReg a) + sint16 o)
    | .sw a _ o =>
      (kind = .negativeAddress (sint (s.readReg a) + sint16 o) ∧ sint (s.readReg a) + sint16 o < 0) ∨
      (kind = .memoryOutOfRange (sint (s.readReg a) + sint16 o) ∧ 65536 ≤ sint (s.readReg a) + sint16 o)
    | .beq a b o => s.readReg a = s.readReg b ∧ kind = .negativeAddress (s.pc + sint16 o) ∧ s.pc + sint16 o < 0
    | .jalr a _ => kind = .negativeAddress (sint (s.readReg a)) ∧ sint (s.readReg a) < 0
    | .halt => False
    | .noop => False)

/-- R83, R210, R242: no step raises `UnrecognizedOpcodeFault` or a load error, and every fault of a step has one of the
other codes. -/
def Obligations.StepRaisesOnlyRunFaults : Prop :=
  ∀ (s t : State) (kind : FaultKind), step s = .next t → t.runState = .faulted kind →
    kind ≠ .unrecognizedOpcode ∧ kind ≠ .malformedMemoryRecord ∧ kind ≠ .imageTooLarge ∧
    (kind.code = 1 ∨ kind.code = 2 ∨ kind.code = 3 ∨ kind.code = 5)

/-- R212: the faulting instruction's address computed from the `pc` of the fault is the address the step fetched at. -/
def Obligations.FaultingAddressIsFetchAddress : Prop :=
  ∀ (s t : State) (kind : FaultKind), step s = .next t → t.runState = .faulted kind →
    (∀ c, kind ≠ .runtimeBudgetExceeded c) → t.faultingAddress = some s.pc

/-- R30: from a block that is `Running`, only `halt` makes it `Halted`, and `halt` always does. -/
def Obligations.OnlyHaltHalts : Prop :=
  ∀ (i : Instr) (s t : State), s.runState = .running → exec i s = .next t → (t.runState = .halted ↔ i = .halt)

/-- Placing a table word where the step fetches makes the very next step run exactly it, from every state with a
canonical memory (the model's own helper, notes/assumptions/10.md). -/
def Obligations.FetchWordRunsNext : Prop :=
  ∀ (s t : State) (nbits w : Nat) (i : Instr), s.mem.wf = true → decodeTableWord nbits w = some i →
    exec i (advance (s.withFetchWord nbits w)) = .next t → step (s.withFetchWord nbits w) = .next (finish t)

/-! ### Memory -/

/-- R57 (derived in the spec from R50 and R43): a read gives the last Word written at its address; a write changes no other address; an address never written
reads as the reset content 0 (R34). -/
def Obligations.MemReadAfterMemWrite : Prop :=
  (∀ (m : Memory) (a b : Nat) (v : Word), m.wf = true → a < 65536 → b < 65536 →
    (m.writeWord a v).readWord b = if b = a then v else m.readWord b) ∧
  (∀ a : Nat, State.reset.mem.readWord a = 0#32)

/-- R36: nothing is hidden from `observe()`: two states in canonical form with the same observation and the same
ceiling are the same state. -/
def Obligations.ObservationDeterminesState : Prop :=
  ∀ s t : State, s.mem.wf = true → t.mem.wf = true → s.observe = t.observe → s.instBudget = t.instBudget → s = t

/-- R42: what `observe()` returns: the run state, `pc`, each register, the Word at each address of `[0, 65536)`, and the
two counters. -/
def Obligations.ObserveReturnsEverything : Prop :=
  ∀ s : State, s.observe.runState = s.runState ∧ s.observe.pc = s.pc ∧ (∀ r : RegNum, s.observe.regs[r] = s.readReg r) ∧
    s.observe.loadedWordCount = s.loadedWordCount.val ∧ s.observe.instCount = s.instCount ∧
    s.observe.memory.length = 65536 ∧
    ∀ a : Nat, a < 65536 → s.observe.memory[a]? = some (s.mem.readWord a)

/-- R56: a data access outside `[0, 65536)` raises its fault and writes no register and no memory. -/
def Obligations.OutOfRangeAccessWritesNothing : Prop :=
  ∀ (a b : RegNum) (o : Offset) (s : State) (i : Instr), i = .lw a b o ∨ i = .sw a b o →
    (sint (s.readReg a) + sint16 o < 0 →
      exec i s = .next { s with runState := .faulted (.negativeAddress (sint (s.readReg a) + sint16 o)) }) ∧
    (65536 ≤ sint (s.readReg a) + sint16 o →
      exec i s = .next { s with runState := .faulted (.memoryOutOfRange (sint (s.readReg a) + sint16 o)) })

/-- R60: a `lw` returns the value of the `sw` just before it to its address, in two bodies one after the other. -/
def Obligations.LoadAfterStoreReturnsStoredWord : Prop :=
  ∀ (a b c d : RegNum) (o p : Offset) (s t : State), s.mem.wf = true →
    0 ≤ sint (s.readReg a) + sint16 o → sint (s.readReg a) + sint16 o < 65536 →
    exec (.sw a b o) s = .next t → sint (t.readReg c) + sint16 p = sint (s.readReg a) + sint16 o →
    ∃ u, exec (.lw c d p) t = .next u ∧ u.readReg d = s.readReg b

/-- R63: a `sw` to the address of the next fetch, inside the loaded range, is what that fetch reads; a `sw` beyond the
loaded range leaves every fetch as it was. -/
def Obligations.FetchSeesStoreAtOnce : Prop :=
  ∀ (a b : RegNum) (o : Offset) (s t : State), s.mem.wf = true → s.InFetchRange → exec (.sw a b o) s = .next t →
    (sint (s.readReg a) + sint16 o = s.pc → t.fetch = some (s.readReg b)) ∧
    (sint (s.readReg a) + sint16 o ≠ s.pc → t.fetch = s.fetch) ∧
    t.loadedWordCount = s.loadedWordCount

/-- R22, R54: no instruction but `sw` changes memory. -/
def Obligations.OnlySwChangesMemory : Prop :=
  ∀ (i : Instr) (s t : State), exec i s = .next t → (∀ a b o, i ≠ .sw a b o) → SameMemory s t

/-! ### Registers -/

/-- R22: an instruction writes no register but the one of its row, and its whole effect depends on no register but
those of its row: changing another register beforehand changes nothing but that register. -/
def Obligations.RegisterAccessTable : Prop :=
  (∀ (i : Instr) (s t : State) (r : RegNum), exec i s = .next t →
    (match i with
     | .add _ _ d => r ≠ d
     | .nor _ _ d => r ≠ d
     | .lw _ b _ => r ≠ b
     | .sw _ _ _ => True
     | .beq _ _ _ => True
     | .jalr _ b => r ≠ b
     | .halt => True
     | .noop => True) → t.readReg r = s.readReg r) ∧
  (∀ (i : Instr) (s t : State) (r : RegNum) (v : Word), exec i s = .next t →
    (match i with
     | .add a b d => r ≠ a ∧ r ≠ b ∧ r ≠ d
     | .nor a b d => r ≠ a ∧ r ≠ b ∧ r ≠ d
     | .lw a b _ => r ≠ a ∧ r ≠ b
     | .sw a b _ => r ≠ a ∧ r ≠ b
     | .beq a b _ => r ≠ a ∧ r ≠ b
     | .jalr a b => r ≠ a ∧ r ≠ b
     | .halt => True
     | .noop => True) → exec i (s.writeReg r v) = .next (t.writeReg r v))

/-- R22: the register an instruction writes gets the same value whatever that register held before, when the register is
not one its row reads. -/
def Obligations.DestinationIsNotRead : Prop :=
  ∀ (i : Instr) (s t : State) (r : RegNum) (v : Word), exec i s = .next t → t.NotFaulted → regWritten i = some r →
    r ∉ regsRead i → exec i (s.writeReg r v) = .next t

/-- R21: register 0 is written like any other register. -/
def Obligations.RegisterZeroIsWritten : Prop :=
  (∀ (a b : RegNum) (s : State), ∃ t, exec (.add a b 0) s = .next t ∧
    t.readReg 0 = wordOf (uint (s.readReg a) + uint (s.readReg b))) ∧
  (∀ (a b : RegNum) (s : State), ∃ t, exec (.nor a b 0) s = .next t ∧ t.readReg 0 = ~~~(s.readReg a ||| s.readReg b)) ∧
  (∀ (a : RegNum) (o : Offset) (s : State), 0 ≤ sint (s.readReg a) + sint16 o → sint (s.readReg a) + sint16 o < 65536 →
    ∃ t, exec (.lw a 0 o) s = .next t ∧ t.readReg 0 = s.mem.readWord (sint (s.readReg a) + sint16 o).toNat) ∧
  (∀ (a : RegNum) (s : State), ∃ t, exec (.jalr a 0) s = .next t ∧ t.readReg 0 = wordOf s.pc)

/-- R246 (derived in the spec): where a source register is also the destination, the read sees the value from before the instruction. -/
def Obligations.ReadsComeBeforeTheWrite : Prop :=
  (∀ (a b d : RegNum) (s : State), d = a ∨ d = b →
    ∃ t, exec (.add a b d) s = .next t ∧ t.readReg d = wordOf (uint (s.readReg a) + uint (s.readReg b))) ∧
  (∀ (a b d : RegNum) (s : State), d = a ∨ d = b →
    ∃ t, exec (.nor a b d) s = .next t ∧ t.readReg d = ~~~(s.readReg a ||| s.readReg b)) ∧
  (∀ (r : RegNum) (o : Offset) (s : State), 0 ≤ sint (s.readReg r) + sint16 o → sint (s.readReg r) + sint16 o < 65536 →
    ∃ t, exec (.lw r r o) s = .next t ∧ t.readReg r = s.mem.readWord (sint (s.readReg r) + sint16 o).toNat) ∧
  (∀ (r : RegNum) (s : State), 0 ≤ sint (s.readReg r) →
    ∃ t, exec (.jalr r r) s = .next t ∧ t.readReg r = wordOf s.pc ∧ t.pc = sint (s.readReg r))

/-! ### The instructions: encoding, result, completion, faults and frame -/

/-- R120, `add`: the sum as `word` of R8, and as a number modulo 2^32. -/
def Obligations.AddWritesSumAndNothingElse : Prop :=
  ∀ (a b d : RegNum) (s : State),
    encode (.add a b d) = BitVec.ofNat 32 (0 * 2 ^ 22 + a.val * 2 ^ 19 + b.val * 2 ^ 16 + d.val) ∧
    (∀ w : Word, w &&& 0x01FF0007#32 = encode (.add a b d) → decode w = .add a b d) ∧
    ∃ t, exec (.add a b d) s = .next t ∧ t.readReg d = wordOf (uint (s.readReg a) + uint (s.readReg b)) ∧
      (t.readReg d).toNat = ((s.readReg a).toNat + (s.readReg b).toNat) % 2 ^ 32 ∧
      SameRegsExcept [d] s t ∧ SameMemory s t ∧ SameCounters s t ∧ t.pc = s.pc ∧ t.runState = s.runState

/-- R125, `nor`. -/
def Obligations.NorWritesNorAndNothingElse : Prop :=
  ∀ (a b d : RegNum) (s : State),
    encode (.nor a b d) = BitVec.ofNat 32 (1 * 2 ^ 22 + a.val * 2 ^ 19 + b.val * 2 ^ 16 + d.val) ∧
    (∀ w : Word, w &&& 0x01FF0007#32 = encode (.nor a b d) → decode w = .nor a b d) ∧
    ∃ t, exec (.nor a b d) s = .next t ∧
      (∀ k, k < 32 → (t.readReg d).getLsbD k = !((s.readReg a).getLsbD k || (s.readReg b).getLsbD k)) ∧
      SameRegsExcept [d] s t ∧ SameMemory s t ∧ SameCounters s t ∧ t.pc = s.pc ∧ t.runState = s.runState

/-- R130, `lw`: the load, and its two faults. -/
def Obligations.LwLoadsWordOrFaults : Prop :=
  ∀ (a b : RegNum) (o : Offset) (s : State),
    encode (.lw a b o) = BitVec.ofNat 32 (2 * 2 ^ 22 + a.val * 2 ^ 19 + b.val * 2 ^ 16 + o.toNat) ∧
    (∀ w : Word, w &&& 0x01FFFFFF#32 = encode (.lw a b o) → decode w = .lw a b o) ∧
    (0 ≤ sint (s.readReg a) + sint16 o → sint (s.readReg a) + sint16 o < 65536 →
      ∃ t, exec (.lw a b o) s = .next t ∧ t.readReg b = s.mem.readWord (sint (s.readReg a) + sint16 o).toNat ∧
        SameRegsExcept [b] s t ∧ SameMemory s t ∧ SameCounters s t ∧ t.pc = s.pc ∧ t.runState = s.runState) ∧
    (sint (s.readReg a) + sint16 o < 0 →
      exec (.lw a b o) s = .next { s with runState := .faulted (.negativeAddress (sint (s.readReg a) + sint16 o)) }) ∧
    (65536 ≤ sint (s.readReg a) + sint16 o →
      exec (.lw a b o) s = .next { s with runState := .faulted (.memoryOutOfRange (sint (s.readReg a) + sint16 o)) })

/-- R135, `sw`: the store, and its two faults. -/
def Obligations.SwStoresWordOrFaults : Prop :=
  ∀ (a b : RegNum) (o : Offset) (s : State),
    encode (.sw a b o) = BitVec.ofNat 32 (3 * 2 ^ 22 + a.val * 2 ^ 19 + b.val * 2 ^ 16 + o.toNat) ∧
    (∀ w : Word, w &&& 0x01FFFFFF#32 = encode (.sw a b o) → decode w = .sw a b o) ∧
    (s.mem.wf = true → 0 ≤ sint (s.readReg a) + sint16 o → sint (s.readReg a) + sint16 o < 65536 →
      ∃ t, exec (.sw a b o) s = .next t ∧ t.mem.readWord (sint (s.readReg a) + sint16 o).toNat = s.readReg b ∧
        SameMemoryOutside (sint (s.readReg a) + sint16 o).toNat s t ∧ SameRegsExcept [] s t ∧ SameCounters s t ∧
        t.pc = s.pc ∧ t.runState = s.runState) ∧
    (sint (s.readReg a) + sint16 o < 0 →
      exec (.sw a b o) s = .next { s with runState := .faulted (.negativeAddress (sint (s.readReg a) + sint16 o)) }) ∧
    (65536 ≤ sint (s.readReg a) + sint16 o →
      exec (.sw a b o) s = .next { s with runState := .faulted (.memoryOutOfRange (sint (s.readReg a) + sint16 o)) })

/-- R140, `beq`: taken, taken to a negative address, not taken. Each next state is the whole of it: nothing but what is
named changes. -/
def Obligations.BeqBranchesOnEqualWords : Prop :=
  ∀ (a b : RegNum) (o : Offset) (s : State),
    encode (.beq a b o) = BitVec.ofNat 32 (4 * 2 ^ 22 + a.val * 2 ^ 19 + b.val * 2 ^ 16 + o.toNat) ∧
    (∀ w : Word, w &&& 0x01FFFFFF#32 = encode (.beq a b o) → decode w = .beq a b o) ∧
    (s.readReg a = s.readReg b → 0 ≤ s.pc + sint16 o → exec (.beq a b o) s = .next { s with pc := s.pc + sint16 o }) ∧
    (s.readReg a = s.readReg b → s.pc + sint16 o < 0 →
      exec (.beq a b o) s = .next { s with runState := .faulted (.negativeAddress (s.pc + sint16 o)) }) ∧
    (s.readReg a ≠ s.readReg b → exec (.beq a b o) s = .next s)

/-- R150, `jalr`: the link and the jump to the target as it was before the link write; and the fault, with the link
written. -/
def Obligations.JalrLinksAndJumpsToOldTarget : Prop :=
  ∀ (a b : RegNum) (s : State),
    encode (.jalr a b) = BitVec.ofNat 32 (5 * 2 ^ 22 + a.val * 2 ^ 19 + b.val * 2 ^ 16) ∧
    (∀ w : Word, w &&& 0x01FF0000#32 = encode (.jalr a b) → decode w = .jalr a b) ∧
    (0 ≤ sint (s.readReg a) →
      ∃ t, exec (.jalr a b) s = .next t ∧ t.readReg b = wordOf s.pc ∧ t.pc = sint (s.readReg a) ∧
        ((t.readReg b).toNat : Int) = s.pc % 2 ^ 32 ∧
        SameRegsExcept [b] s t ∧ SameMemory s t ∧ SameCounters s t ∧ t.runState = s.runState) ∧
    (sint (s.readReg a) < 0 →
      ∃ t, exec (.jalr a b) s = .next t ∧ t.runState = .faulted (.negativeAddress (sint (s.readReg a))) ∧
        t.readReg b = wordOf s.pc ∧ t.pc = s.pc ∧ SameRegsExcept [b] s t ∧ SameMemory s t ∧ SameCounters s t)

/-- R160, `halt`: its Word, its body, and its whole step: halted, `pc` one further, counted, the fuse silent. -/
def Obligations.HaltStopsTheBlock : Prop :=
  encode .halt = 25165824#32 ∧
  (∀ w : Word, w &&& 0x01C00000#32 = encode .halt → decode w = .halt) ∧
  (∀ s : State, exec .halt s = .next { s with runState := .halted }) ∧
  (∀ s : State, s.runState = .running → 0 ≤ s.pc → s.pc < (s.loadedWordCount.val : Int) →
    s.mem.readWord s.pc.toNat &&& 0x01C00000#32 = 0x01800000#32 →
    step s = .next { s with pc := s.pc + 1, instCount := s.instCount + 1, runState := .halted })

/-- R165, `noop`: its Word, its body, and its whole step: only `pc` and `instCount` change, where the fuse stays
silent, and the fuse may fire after it. -/
def Obligations.NoopOnlyAdvances : Prop :=
  encode .noop = 29360128#32 ∧
  (∀ w : Word, w &&& 0x01C00000#32 = encode .noop → decode w = .noop) ∧
  (∀ s : State, exec .noop s = .next s) ∧
  (∀ s : State, s.runState = .running → 0 ≤ s.pc → s.pc < (s.loadedWordCount.val : Int) →
    s.mem.readWord s.pc.toNat &&& 0x01C00000#32 = 0x01C00000#32 →
    ((∀ b, s.instBudget = some b → s.instCount + 1 < b) →
      step s = .next { s with pc := s.pc + 1, instCount := s.instCount + 1 }) ∧
    (∀ b, s.instBudget = some b → b ≤ s.instCount + 1 →
      step s = .next { s with
        pc := s.pc + 1
        instCount := s.instCount + 1
        runState := .faulted (.runtimeBudgetExceeded (s.instCount + 1)) }))

/-! ### Reset and load -/

/-- R23, R27 (and R31, R32, R34 at an empty image): what reset leaves. The ceiling that `State.reset` holds is the
model's choice and is not stated (notes/assumptions/2.md). -/
def Obligations.ResetStateIsZero : Prop :=
  (∀ r, State.reset.readReg r = 0#32) ∧ State.reset.pc = 0 ∧ State.reset.instCount = 0 ∧
  State.reset.loadedWordCount.val = 0 ∧ State.reset.runState = .running ∧ (∀ a, State.reset.mem.readWord a = 0#32)

/-- R240, R243: what a successful load leaves: the image's values as Words from address 0 up, 0 beyond them, and every
other piece of state at its reset value, whatever came before. -/
def Obligations.LoadPlacesTheImage : Prop :=
  ∀ (image : List Token) (values : List Int) (budget : Option Nat) (junk : State),
    image.map recordValue = values.map some → image.length ≤ 65536 →
    (load image budget junk).runState = .running ∧ (load image budget junk).pc = 0 ∧
    (load image budget junk).instCount = 0 ∧ (load image budget junk).loadedWordCount.val = image.length ∧
    (load image budget junk).instBudget = budget ∧ (∀ r, (load image budget junk).readReg r = 0#32) ∧
    (∀ (i : Nat) (v : Int), values[i]? = some v → (load image budget junk).mem.readWord i = wordOf v) ∧
    (∀ i : Nat, image.length ≤ i → (load image budget junk).mem.readWord i = 0#32)

/-- R242: the two load errors; where an image has both, one of the two. -/
def Obligations.LoadErrorsAreReported : Prop :=
  ∀ (image : List Token) (budget : Option Nat) (junk : State),
    ((∃ r ∈ image, recordValue r = none) → image.length ≤ 65536 →
      (load image budget junk).runState = .faulted .malformedMemoryRecord) ∧
    ((∀ r ∈ image, recordValue r ≠ none) → 65536 < image.length →
      (load image budget junk).runState = .faulted .imageTooLarge) ∧
    ((∃ r ∈ image, recordValue r = none) → 65536 < image.length →
      (load image budget junk).runState = .faulted .malformedMemoryRecord ∨
      (load image budget junk).runState = .faulted .imageTooLarge) ∧
    (∀ r : Token, recordValue r ≠ none ↔ ∃ v, parseNumeral r = some v ∧ -2 ^ 31 ≤ v ∧ v ≤ 2 ^ 31 - 1)

/-- R241: after a successful load the block is `Running` and first fetches at address 0; an empty image loads, and its
first step raises the fetch fault with `pc = 0` (that sentence is derived in the spec from R240 and R101). -/
def Obligations.LoadedBlockRunsFromZero : Prop :=
  (∀ (image : List Token) (budget : Option Nat) (junk : State), loadError image = none →
    (load image budget junk).runState = .running ∧ (load image budget junk).pc = 0 ∧
    (image ≠ [] → (load image budget junk).fetch = some ((load image budget junk).mem.readWord 0))) ∧
  (∀ (budget : Option Nat) (junk : State), loadError [] = none ∧
    ∃ t, step (load [] budget junk) = .next t ∧ t.runState = .faulted (.fetchOutOfRange 0))

/-! ### The assembler -/

/-- R8: `word(n)` is the Word whose `uint` equals `n mod 2^32`. R188, R242: what the assembler writes for an integer (notes/assumptions/15.md) is a numeral of that value, so a record of the output loads as
the Word it was written from. -/
def Obligations.DecimalTextRoundTrip : Prop :=
  (∀ v : Int, ((wordOf v).toNat : Int) = v % 2 ^ 32) ∧
  (∀ v : Int, parseNumeral (renderDecimal v) = some v) ∧
  (∀ w : Word, recordValue (renderDecimal (sint w)) = some (sint w) ∧ wordOf (sint w) = w)

/-- R178, R242: a token is a number exactly when it is one or more decimal digits after at most one sign, and its value
is that of the digits, negated after `-`. -/
def Obligations.NumericTokensAreSignedDigits : Prop :=
  ∀ (token : Token) (v : Int), parseNumeral token = some v ↔
    ∃ digits : Token, digits ≠ [] ∧ (∀ c ∈ digits, 48 ≤ c.toNat ∧ c.toNat ≤ 57) ∧
      ((token = digits ∨ token = '+' :: digits) ∧ v = (digits.foldl (fun n c => 10 * n + (c.toNat - 48)) 0 : Nat) ∨
       token = '-' :: digits ∧ v = -((digits.foldl (fun n c => 10 * n + (c.toNat - 48)) 0 : Nat) : Int))

/-- R179: which tokens are register operands, and that every other one is `InvalidRegisterError`. -/
def Obligations.RegisterTokensAreDigitsBelowEight : Prop :=
  (∀ (token : Token) (r : RegNum), parseRegister token = .ok r ↔
    token ≠ [] ∧ (∀ c ∈ token, 48 ≤ c.toNat ∧ c.toNat ≤ 57) ∧
    token.foldl (fun n c => 10 * n + (c.toNat - 48)) 0 = r.val) ∧
  (∀ token : Token, (∀ r, parseRegister token ≠ .ok r) → parseRegister token = .error .invalidRegister)

/-- R182, R78: an offset in `[-32768, 32767]` is packed so that its sign extension gives it back, and any other is
`OffsetRangeError`. -/
def Obligations.OffsetPackingRoundTrip : Prop :=
  (∀ o : Int, -32768 ≤ o → o ≤ 32767 → ∃ f, packOffset o = .ok f ∧ sint16 f = o ∧ (f.toNat : Int) = o % 2 ^ 16) ∧
  (∀ o : Int, o < -32768 ∨ 32767 < o → packOffset o = .error .offsetRange)

/-- R174, R175: when pass 1 succeeds, a name resolves exactly to the address of the one record that carries it as its
label; the empty name resolves to nothing (derived in the spec from R174). -/
def Obligations.SymbolTableBindsLabelsToAddresses : Prop :=
  ∀ (maxLine : Nat) (lines : List SourceLine) (t : SymbolTable), buildSymbols maxLine [] 0 lines = .ok t →
    (∀ (name : Token) (k : Nat), resolve t name = .ok k ↔
      name ≠ [] ∧ ((recordsOf lines)[k]?).map SourceRecord.label = some name) ∧
    (∀ name : Token, (∀ k, resolve t name ≠ .ok k) → resolve t name = .error .undefinedLabel)

/-- R174: pass 1 of a source with no over-long line fails exactly when two records carry the same non-empty label, and
then with `DuplicateLabelError`. -/
def Obligations.DuplicateLabelsAreRefused : Prop :=
  ∀ (maxLine : Nat) (lines : List SourceLine), (∀ l ∈ lines, l.length ≤ maxLine) →
    (((recordsOf lines).map SourceRecord.label).filter (fun n => n != [])).Nodup ∧
      (∃ t, buildSymbols maxLine [] 0 lines = .ok t) ∨
    ¬ (((recordsOf lines).map SourceRecord.label).filter (fun n => n != [])).Nodup ∧
      buildSymbols maxLine [] 0 lines = .error .duplicateLabel

/-- R181: the Word of an R-type record, whose destination must not be register 0. -/
def Obligations.RTypeRecordsRefuseDestinationZero : Prop :=
  ∀ (t : SymbolTable) (i : Nat) (r : SourceRecord) (a b d : RegNum),
    parseRegister r.arg0 = .ok a → parseRegister r.arg1 = .ok b → parseRegister r.arg2 = .ok d →
    (r.opcode = "add".toList → d ≠ 0 →
      encodeRecord t i r = .ok (BitVec.ofNat 32 (0 * 2 ^ 22 + a.val * 2 ^ 19 + b.val * 2 ^ 16 + d.val))) ∧
    (r.opcode = "nor".toList → d ≠ 0 →
      encodeRecord t i r = .ok (BitVec.ofNat 32 (1 * 2 ^ 22 + a.val * 2 ^ 19 + b.val * 2 ^ 16 + d.val))) ∧
    (r.opcode = "add".toList ∨ r.opcode = "nor".toList → d = 0 → encodeRecord t i r = .error .invalidRegister)

/-- R182, R183, R184: the Word of an I-type record, whose offset is the number, or the label's address for `lw` and `sw`, or
that address made relative for `beq`; `OffsetRangeError` outside `[-32768, 32767]`, `UndefinedLabelError` for a name
that is no symbol. The Word of a `jalr` record, whatever its third token. And the Words of a `halt` and a `noop` record,
whatever their operand tokens. -/
def Obligations.ITypeAndJTypeRecordsGiveTheirWords : Prop :=
  (∀ (t : SymbolTable) (i : Nat) (r : SourceRecord) (a b : RegNum),
    parseRegister r.arg0 = .ok a → parseRegister r.arg1 = .ok b →
    (∀ o : Int, parseNumeral r.arg2 = some o ∨
        parseNumeral r.arg2 = none ∧ (∃ k, resolve t r.arg2 = .ok k ∧ o = (k : Int)) →
      (r.opcode = "lw".toList → -32768 ≤ o → o ≤ 32767 →
        encodeRecord t i r = .ok (BitVec.ofNat 32 (2 * 2 ^ 22 + a.val * 2 ^ 19 + b.val * 2 ^ 16 + (o % 2 ^ 16).toNat))) ∧
      (r.opcode = "sw".toList → -32768 ≤ o → o ≤ 32767 →
        encodeRecord t i r = .ok (BitVec.ofNat 32 (3 * 2 ^ 22 + a.val * 2 ^ 19 + b.val * 2 ^ 16 + (o % 2 ^ 16).toNat))) ∧
      (r.opcode = "lw".toList ∨ r.opcode = "sw".toList → o < -32768 ∨ 32767 < o →
        encodeRecord t i r = .error .offsetRange)) ∧
    (∀ o : Int, parseNumeral r.arg2 = some o ∨
        parseNumeral r.arg2 = none ∧ (∃ k, resolve t r.arg2 = .ok k ∧ o = (k : Int) - i - 1) →
      r.opcode = "beq".toList →
      (-32768 ≤ o → o ≤ 32767 →
        encodeRecord t i r = .ok (BitVec.ofNat 32 (4 * 2 ^ 22 + a.val * 2 ^ 19 + b.val * 2 ^ 16 + (o % 2 ^ 16).toNat))) ∧
      (o < -32768 ∨ 32767 < o → encodeRecord t i r = .error .offsetRange)) ∧
    (r.opcode = "lw".toList ∨ r.opcode = "sw".toList ∨ r.opcode = "beq".toList → parseNumeral r.arg2 = none →
      (∀ k, resolve t r.arg2 ≠ .ok k) → encodeRecord t i r = .error .undefinedLabel) ∧
    (r.opcode = "jalr".toList →
      encodeRecord t i r = .ok (BitVec.ofNat 32 (5 * 2 ^ 22 + a.val * 2 ^ 19 + b.val * 2 ^ 16)))) ∧
  (∀ (t : SymbolTable) (i : Nat) (r : SourceRecord),
    (r.opcode = "halt".toList → encodeRecord t i r = .ok 25165824#32) ∧
    (r.opcode = "noop".toList → encodeRecord t i r = .ok 29360128#32))

/-- R176, R179, R187: the opcode token is checked before any operand, a token that is none of the nine of R176 being
unsupported; and a bad register operand is `InvalidRegisterError` in every opcode family, whatever the later tokens. -/
def Obligations.RecordChecksGoLeftToRight : Prop :=
  ∀ (t : SymbolTable) (i : Nat) (r : SourceRecord),
    (r.opcode ∉ ["add".toList, "nor".toList, "lw".toList, "sw".toList, "beq".toList, "jalr".toList, "halt".toList,
        "noop".toList, ".fill".toList] →
      encodeRecord t i r = .error .unsupportedOpcode) ∧
    (r.opcode ∈ ["lw".toList, "sw".toList, "beq".toList, "jalr".toList] →
      (∀ a, parseRegister r.arg0 ≠ .ok a) ∨ (∀ b, parseRegister r.arg1 ≠ .ok b) →
      encodeRecord t i r = .error .invalidRegister) ∧
    (r.opcode ∈ ["add".toList, "nor".toList] →
      (∀ a, parseRegister r.arg0 ≠ .ok a) ∨ (∀ b, parseRegister r.arg1 ≠ .ok b) ∨ (∀ d, parseRegister r.arg2 ≠ .ok d) →
      encodeRecord t i r = .error .invalidRegister)

/-- R185: the Word of a `.fill` record: a number in `[-2^31, 2^31 - 1]` verbatim, `FillRangeError` for any other number,
for a label its address, and `UndefinedLabelError` (R175) for a name that is no symbol. -/
def Obligations.FillRecordsAreVerbatim : Prop :=
  ∀ (t : SymbolTable) (i : Nat) (r : SourceRecord), r.opcode = ".fill".toList →
    (∀ v : Int, parseNumeral r.arg0 = some v → -2 ^ 31 ≤ v → v ≤ 2 ^ 31 - 1 → encodeRecord t i r = .ok (wordOf v)) ∧
    (∀ v : Int, parseNumeral r.arg0 = some v → v < -2 ^ 31 ∨ 2 ^ 31 - 1 < v → encodeRecord t i r = .error .fillRange) ∧
    (∀ a : Nat, parseNumeral r.arg0 = none → resolve t r.arg0 = .ok a → encodeRecord t i r = .ok (wordOf a)) ∧
    (parseNumeral r.arg0 = none → (∀ a, resolve t r.arg0 ≠ .ok a) → encodeRecord t i r = .error .undefinedLabel)

/-- R190 (a), R173: a source of `N` records that assembles gives exactly `N` Words and `N` output lines, the Word at
position `i` being that of record `i` at address `i`. -/
def Obligations.AssemblerGivesOneWordPerRecord : Prop :=
  ∀ (maxLine : Nat) (lines : List SourceLine) (words : List Word), assemble maxLine lines = .ok words →
    words.length = (recordsOf lines).length ∧ (outputLines words).length = (recordsOf lines).length ∧
    ∃ t, buildSymbols maxLine [] 0 lines = .ok t ∧
      ∀ (i : Nat) (r : SourceRecord) (w : Word), (recordsOf lines)[i]? = some r → words[i]? = some w →
        encodeRecord t i r = .ok w

/-- R190 (b), (c): label references in a source that assembles. A `.fill L` is the Word of L's address; a `lw` or `sw`
naming L has it as its offset; a `beq` naming L, executed at its address with equal registers, sets `pc` to it. -/
def Obligations.LabelReferencesReachTheirRecord : Prop :=
  ∀ (maxLine : Nat) (lines : List SourceLine) (words : List Word) (i k : Nat) (r target : SourceRecord) (w : Word),
    assemble maxLine lines = .ok words → (recordsOf lines)[i]? = some r → words[i]? = some w →
    (recordsOf lines)[k]? = some target → target.label ≠ [] → parseNumeral target.label = none →
    (r.opcode = ".fill".toList → r.arg0 = target.label → w = wordOf k) ∧
    (r.opcode = "lw".toList → r.arg2 = target.label → ∃ a b o, decode w = .lw a b o ∧ sint16 o = k) ∧
    (r.opcode = "sw".toList → r.arg2 = target.label → ∃ a b o, decode w = .sw a b o ∧ sint16 o = k) ∧
    (r.opcode = "beq".toList → r.arg2 = target.label → ∃ a b o, decode w = .beq a b o ∧
      ∀ s : State, s.pc = (i : Int) + 1 → s.readReg a = s.readReg b → exec (decode w) s = .next { s with pc := (k : Int) })

/-- R181, R184, R186: every Word the assembler makes of an instruction record decodes to a well-formed instruction whose
canonical Word it is. -/
def Obligations.AssembledInstructionsAreCanonical : Prop :=
  ∀ (t : SymbolTable) (i : Nat) (r : SourceRecord) (w : Word), encodeRecord t i r = .ok w → r.opcode ≠ ".fill".toList →
    (decode w).wellFormed = true ∧ encode (decode w) = w

/-- The assembler's output is a machine-code file of the block: a source that assembles to at most 65536 Words loads
without error, and each Word then stands at its record's address (R173, R188, R240). -/
def Obligations.AssembledOutputLoadsVerbatim : Prop :=
  ∀ (maxLine : Nat) (lines : List SourceLine) (words : List Word) (budget : Option Nat) (junk : State),
    assemble maxLine lines = .ok words → words.length ≤ 65536 →
    (load (outputLines words) budget junk).runState = .running ∧
    (load (outputLines words) budget junk).loadedWordCount.val = (recordsOf lines).length ∧
    ∀ (i : Nat) (w : Word), words[i]? = some w → (load (outputLines words) budget junk).mem.readWord i = w
end

