-- ==== Sys2Proof/Laws/Decode.lean ====
section
/-! SUPPORT. The fields of a Word and the packing of fields as plain arithmetic on `w.toNat`, for proofs by omega. -/

namespace Sys2Proof

theorem opcodeField_val (w : Word) : (opcodeField w).val = w.toNat / 4194304 % 8 := by
  simp [opcodeField, Nat.shiftRight_eq_div_pow]

theorem regAField_val (w : Word) : (regAField w).val = w.toNat / 524288 % 8 := by
  simp [regAField, Nat.shiftRight_eq_div_pow]

theorem regBField_val (w : Word) : (regBField w).val = w.toNat / 65536 % 8 := by
  simp [regBField, Nat.shiftRight_eq_div_pow]

theorem destRegField_val (w : Word) : (destRegField w).val = w.toNat % 8 := by
  simp [destRegField]

theorem offsetField_toNat (w : Word) : (offsetField w).toNat = w.toNat % 65536 := by
  simp [offsetField, BitVec.extractLsb'_toNat]

/-- R80, R81: the eight cases of decoding, by the value of the opcode field. -/
theorem decode_cases (w : Word) :
    ((opcodeField w).val = 0 ∧ decode w = .add (regAField w) (regBField w) (destRegField w)) ∨
    ((opcodeField w).val = 1 ∧ decode w = .nor (regAField w) (regBField w) (destRegField w)) ∨
    ((opcodeField w).val = 2 ∧ decode w = .lw (regAField w) (regBField w) (offsetField w)) ∨
    ((opcodeField w).val = 3 ∧ decode w = .sw (regAField w) (regBField w) (offsetField w)) ∨
    ((opcodeField w).val = 4 ∧ decode w = .beq (regAField w) (regBField w) (offsetField w)) ∨
    ((opcodeField w).val = 5 ∧ decode w = .jalr (regAField w) (regBField w)) ∨
    ((opcodeField w).val = 6 ∧ decode w = .halt) ∨
    ((opcodeField w).val = 7 ∧ decode w = .noop) := by
  unfold decode
  generalize opcodeField w = op
  fin_cases op <;> simp

/-- Bits or-ed below a multiple of a power of two add to it. -/
theorem or_eq_add_of_lt {k a b : Nat} (hb : b < 2 ^ k) : a * 2 ^ k ||| b = a * 2 ^ k + b := by
  rw [Nat.mul_comm]
  exact (Nat.two_pow_add_eq_or_of_lt hb a).symm

/-- R84: the packing is the sum of the shifted fields, because the fields do not overlap. -/
theorem packFields_toNat (op : Fin 8) (regA regB : RegNum) {low : Word} (h : low.toNat < 65536) :
    (packFields op regA regB low).toNat = op.val * 4194304 + regA.val * 524288 + regB.val * 65536 + low.toNat := by
  have ho := op.isLt
  have ha := regA.isLt
  have hb := regB.isLt
  have e1 : op.val <<< 22 % 2 ^ 32 = op.val * 2 ^ 22 := by rw [Nat.shiftLeft_eq]; omega
  have e2 : regA.val <<< 19 % 2 ^ 32 = regA.val * 2 ^ 19 := by rw [Nat.shiftLeft_eq]; omega
  have e3 : regB.val <<< 16 % 2 ^ 32 = regB.val * 2 ^ 16 := by rw [Nat.shiftLeft_eq]; omega
  simp only [packFields, BitVec.toNat_or, BitVec.toNat_shiftLeft, BitVec.toNat_ofNat,
    Nat.mod_eq_of_lt (show op.val < 2 ^ 32 by omega), Nat.mod_eq_of_lt (show regA.val < 2 ^ 32 by omega),
    Nat.mod_eq_of_lt (show regB.val < 2 ^ 32 by omega), e1, e2, e3]
  rw [or_eq_add_of_lt (k := 22) (by omega),
    show op.val * 2 ^ 22 + regA.val * 2 ^ 19 = (op.val * 8 + regA.val) * 2 ^ 19 by omega,
    or_eq_add_of_lt (k := 19) (by omega),
    show (op.val * 8 + regA.val) * 2 ^ 19 + regB.val * 2 ^ 16 = (op.val * 64 + regA.val * 8 + regB.val) * 2 ^ 16 by omega,
    or_eq_add_of_lt (k := 16) (by omega)]
  omega

/-- The fields of a packed Word are the fields it was packed from. -/
theorem fields_packFields (op : Fin 8) (regA regB : RegNum) {low : Word} (h : low.toNat < 65536) :
    opcodeField (packFields op regA regB low) = op ∧ regAField (packFields op regA regB low) = regA ∧
      regBField (packFields op regA regB low) = regB ∧
      (destRegField (packFields op regA regB low)).val = low.toNat % 8 ∧
      (offsetField (packFields op regA regB low)).toNat = low.toNat := by
  have hp := packFields_toNat op regA regB h
  have ho := op.isLt
  have ha := regA.isLt
  have hb := regB.isLt
  refine ⟨Fin.ext ?_, Fin.ext ?_, Fin.ext ?_, ?_, ?_⟩
  · rw [opcodeField_val]; omega
  · rw [regAField_val]; omega
  · rw [regBField_val]; omega
  · rw [destRegField_val]; omega
  · rw [offsetField_toNat]; omega

end Sys2Proof
end

