-- ==== Sys2Proof/Laws/Memory.lean ====
section
/-! SUPPORT. What reading and writing one memory cell do, and that every memory operation keeps the canonical form. -/

namespace Sys2Proof.Machine

@[simp] theorem readCell_nil (k : Nat) : Memory.readCell [] k = Config.unlistedByte := rfl

@[simp] theorem wf_nil : Memory.wf [] = true := rfl

/-- The canonical form of a list with a first cell, as plain propositions. -/
theorem wfFrom_cons {low k : Nat} {v : Byte} {m : Memory} :
    Memory.wfFrom low ((k, v) :: m) = true ↔
      low ≤ k ∧ k < Config.memCells ∧ v ≠ Config.unlistedByte ∧ Memory.wfFrom (k + 1) m = true := by
  simp [Memory.wfFrom, and_assoc]

/-- A canonical list from a higher cell on is canonical from a lower one on. -/
theorem wfFrom_mono {low low' : Nat} {m : Memory} (h : Memory.wfFrom low m = true) (hle : low' ≤ low) :
    Memory.wfFrom low' m = true := by
  cases m with
  | nil => rfl
  | cons c m => rw [wfFrom_cons] at h ⊢; exact ⟨by omega, h.2⟩

/-- A cell below all listed ones is unlisted. -/
theorem readCell_below {low k : Nat} {m : Memory} (h : Memory.wfFrom low m = true) (hk : k < low) :
    m.readCell k = Config.unlistedByte := by
  cases m with
  | nil => rfl
  | cons c m =>
    rw [wfFrom_cons] at h
    simp [Memory.readCell, show k < c.1 by omega]

/-- A cell beyond the memory is unlisted. -/
theorem readCell_beyond {low k : Nat} {m : Memory} (h : Memory.wfFrom low m = true) (hk : Config.memCells ≤ k) :
    m.readCell k = Config.unlistedByte := by
  induction m generalizing low with
  | nil => rfl
  | cons c m ih =>
    rw [wfFrom_cons] at h
    have h1 : ¬ k < c.1 := by omega
    have h2 : k ≠ c.1 := by omega
    simpa [Memory.readCell, h1, h2] using ih h.2.2.2

/-- Reading the cell just written gives the byte written. -/
theorem readCell_writeCell_same {low : Nat} {m : Memory} (h : Memory.wfFrom low m = true) (k : Nat) (b : Byte) :
    (m.writeCell k b).readCell k = b := by
  induction m generalizing low with
  | nil => by_cases hb : b = Config.unlistedByte <;> simp [Memory.writeCell, Memory.readCell, hb]
  | cons c m ih =>
    rw [wfFrom_cons] at h
    obtain ⟨k', v⟩ := c
    by_cases h1 : k < k'
    · by_cases hb : b = Config.unlistedByte <;> simp [Memory.writeCell, Memory.readCell, h1, hb]
    · by_cases h2 : k = k'
      · subst h2
        by_cases hb : b = Config.unlistedByte
        · simp only [Memory.writeCell, hb, Nat.lt_irrefl, if_true, if_false]
          exact readCell_below h.2.2.2 (by omega)
        · simp [Memory.writeCell, Memory.readCell, hb]
      · simpa [Memory.writeCell, Memory.readCell, h1, h2] using ih h.2.2.2

/-- Writing a cell leaves every other cell as it was. -/
theorem readCell_writeCell_ne {low : Nat} {m : Memory} (h : Memory.wfFrom low m = true) {k j : Nat} (hj : j ≠ k)
    (b : Byte) : (m.writeCell k b).readCell j = m.readCell j := by
  induction m generalizing low with
  | nil => by_cases hb : b = Config.unlistedByte <;> simp [Memory.writeCell, Memory.readCell, hb, hj]
  | cons c m ih =>
    rw [wfFrom_cons] at h
    obtain ⟨k', v⟩ := c
    rcases Nat.lt_trichotomy k k' with h1 | h1 | h1
    · by_cases hb : b = Config.unlistedByte
      · simp [Memory.writeCell, h1, hb]
      · by_cases h3 : j < k
        · simp [Memory.writeCell, Memory.readCell, h1, hb, h3, show j < k' by omega]
        · simp [Memory.writeCell, Memory.readCell, h1, hb, h3, hj]
    · subst h1
      by_cases hb : b = Config.unlistedByte
      · simp only [Memory.writeCell, hb, Nat.lt_irrefl, if_true, if_false, Memory.readCell, if_neg hj]
        by_cases h3 : j < k
        · simp [h3, readCell_below h.2.2.2 (show j < k + 1 by omega)]
        · simp [h3]
      · by_cases h3 : j < k <;> simp [Memory.writeCell, Memory.readCell, hb, h3, hj]
    · have h2 : ¬ k < k' := by omega
      have h4 : k ≠ k' := by omega
      simp [Memory.writeCell, Memory.readCell, h2, h4, ih h.2.2.2]

/-- Writing a cell of memory keeps the canonical form. -/
theorem wfFrom_writeCell {low : Nat} {m : Memory} (h : Memory.wfFrom low m = true) {k : Nat} (hlow : low ≤ k)
    (hk : k < Config.memCells) (b : Byte) : Memory.wfFrom low (m.writeCell k b) = true := by
  induction m generalizing low with
  | nil =>
    by_cases hb : b = Config.unlistedByte
    · simp [Memory.writeCell, hb, Memory.wfFrom]
    · simp [Memory.writeCell, Memory.wfFrom, hb, hlow, hk]
  | cons c m ih =>
    obtain ⟨k', v⟩ := c
    have h' := wfFrom_cons.mp h
    rcases Nat.lt_trichotomy k k' with h1 | h1 | h1
    · by_cases hb : b = Config.unlistedByte
      · simpa [Memory.writeCell, h1, hb] using h
      · simp only [Memory.writeCell, h1, hb, if_true, if_false]
        exact wfFrom_cons.mpr ⟨hlow, hk, hb, wfFrom_cons.mpr ⟨by omega, h'.2⟩⟩
    · subst h1
      by_cases hb : b = Config.unlistedByte
      · simpa [Memory.writeCell, hb] using wfFrom_mono h'.2.2.2 (show low ≤ k + 1 by omega)
      · simpa [Memory.writeCell, hb] using wfFrom_cons.mpr ⟨hlow, hk, hb, h'.2.2.2⟩
    · have h2 : ¬ k < k' := by omega
      have h4 : k ≠ k' := by omega
      simp only [Memory.writeCell, h2, h4, if_false]
      exact wfFrom_cons.mpr ⟨h'.1, h'.2.1, h'.2.2.1, ih h'.2.2.2 (by omega)⟩

theorem wf_writeCell {m : Memory} (h : m.wf = true) {k : Nat} (hk : k < Config.memCells) (b : Byte) :
    (m.writeCell k b).wf = true := wfFrom_writeCell h (Nat.zero_le k) hk b

/-- `MemWrite` inside memory keeps the canonical form. -/
theorem wf_writeWord {m : Memory} (h : m.wf = true) {a : Nat} (ha : a < Config.memWords) (v : Word) :
    (m.writeWord a v).wf = true := by
  have hc : 4 * a + 3 < Config.memCells := by simp only [Config.memCells]; omega
  exact wf_writeCell (wf_writeCell (wf_writeCell (wf_writeCell h (by omega) _) (by omega) _) (by omega) _) hc _

/-- What every cell reads as after `MemWrite`: the four cells of the Word hold its bytes, all others what they held. -/
theorem readCell_writeWord {m : Memory} (h : m.wf = true) {a : Nat} (ha : a < Config.memWords) (v : Word) (k : Nat) :
    (m.writeWord a v).readCell k =
      if k = 4 * a + 3 then byteOfWord v 3 else if k = 4 * a + 2 then byteOfWord v 2
      else if k = 4 * a + 1 then byteOfWord v 1 else if k = 4 * a then byteOfWord v 0 else m.readCell k := by
  have hc : 4 * a + 3 < Config.memCells := by simp only [Config.memCells]; omega
  have h0 := wf_writeCell h (k := 4 * a) (by omega) (byteOfWord v 0)
  have h1 := wf_writeCell h0 (k := 4 * a + 1) (by omega) (byteOfWord v 1)
  have h2 := wf_writeCell h1 (k := 4 * a + 2) (by omega) (byteOfWord v 2)
  unfold Memory.writeWord
  split_ifs with e3 e2 e1 e0
  · rw [e3, readCell_writeCell_same h2]
  · rw [readCell_writeCell_ne h2 e3, e2, readCell_writeCell_same h1]
  · rw [readCell_writeCell_ne h2 e3, readCell_writeCell_ne h1 e2, e1, readCell_writeCell_same h0]
  · rw [readCell_writeCell_ne h2 e3, readCell_writeCell_ne h1 e2, readCell_writeCell_ne h0 e1, e0, readCell_writeCell_same h]
  · rw [readCell_writeCell_ne h2 e3, readCell_writeCell_ne h1 e2, readCell_writeCell_ne h0 e1, readCell_writeCell_ne h e0]

/-- Placing an image inside memory keeps the canonical form. -/
theorem wf_placeWords {m : Memory} (h : m.wf = true) {a : Nat} {ws : List Word} (ha : a + ws.length ≤ Config.memWords) :
    (m.placeWords a ws).wf = true := by
  induction ws generalizing m a with
  | nil => exact h
  | cons w ws ih =>
    simp only [List.length_cons] at ha
    exact ih (wf_writeWord h (by omega) w) (by omega)

/-- The four bytes of a Word give the Word back: the byte order is decided in one place. -/
theorem wordOfBytes_byteOfWord (w : Word) :
    wordOfBytes (byteOfWord w 0) (byteOfWord w 1) (byteOfWord w 2) (byteOfWord w 3) = w := by
  apply BitVec.eq_of_getLsbD_eq
  intro i hi
  simp only [wordOfBytes, byteOfWord, BitVec.getLsbD_append, BitVec.getLsbD_extractLsb']
  split_ifs with h0 h1 h2
  · simp [h0]
  · simp [h1, show 8 + (i - 8) = i by omega]
  · simp [h2, show 16 + (i - 8 - 8) = i by omega]
  · simp [show i - 8 - 8 - 8 < 8 by omega, show 24 + (i - 8 - 8 - 8) = i by omega]

/-- Each byte of a Word made of bytes is the byte it was made of. -/
theorem byteOfWord_wordOfBytes (b0 b1 b2 b3 : Byte) :
    byteOfWord (wordOfBytes b0 b1 b2 b3) 0 = b0 ∧ byteOfWord (wordOfBytes b0 b1 b2 b3) 1 = b1 ∧
      byteOfWord (wordOfBytes b0 b1 b2 b3) 2 = b2 ∧ byteOfWord (wordOfBytes b0 b1 b2 b3) 3 = b3 := by
  refine ⟨?_, ?_, ?_, ?_⟩ <;> apply BitVec.eq_of_getLsbD_eq <;> intro i hi <;>
    simp only [wordOfBytes, byteOfWord, BitVec.getLsbD_append, BitVec.getLsbD_extractLsb', hi, decide_true, Bool.true_and]
  · simp [hi]
  · simp [show 8 * 1 + i - 8 = i by omega, hi]
  · simp [show ¬ 8 * 2 + i < 8 by omega, show ¬ 8 * 2 + i - 8 < 8 by omega, show 8 * 2 + i - 8 - 8 = i by omega, hi]
  · simp [show ¬ 8 * 3 + i < 8 by omega, show ¬ 8 * 3 + i - 8 < 8 by omega, show ¬ 8 * 3 + i - 8 - 8 < 8 by omega,
      show 8 * 3 + i - 8 - 8 - 8 = i by omega]

/-- Equal Words are made of equal bytes. -/
theorem wordOfBytes_inj {b0 b1 b2 b3 c0 c1 c2 c3 : Byte} (h : wordOfBytes b0 b1 b2 b3 = wordOfBytes c0 c1 c2 c3) :
    b0 = c0 ∧ b1 = c1 ∧ b2 = c2 ∧ b3 = c3 := by
  obtain ⟨p0, p1, p2, p3⟩ := byteOfWord_wordOfBytes b0 b1 b2 b3
  obtain ⟨q0, q1, q2, q3⟩ := byteOfWord_wordOfBytes c0 c1 c2 c3
  rw [h] at p0 p1 p2 p3
  exact ⟨p0.symm.trans q0, p1.symm.trans q1, p2.symm.trans q2, p3.symm.trans q3⟩

/-- Canonical memories whose cells all read alike are the same list. -/
theorem memory_ext_cells {low : Nat} {m n : Memory} (hm : Memory.wfFrom low m = true) (hn : Memory.wfFrom low n = true)
    (h : ∀ k, m.readCell k = n.readCell k) : m = n := by
  induction m generalizing low n with
  | nil =>
    cases n with
    | nil => rfl
    | cons d n =>
      have hd := wfFrom_cons.mp hn
      exact absurd (by simpa [Memory.readCell] using (h d.1).symm) hd.2.2.1
  | cons c m ih =>
    have hc := wfFrom_cons.mp hm
    cases n with
    | nil => exact absurd (by simpa [Memory.readCell] using h c.1) hc.2.2.1
    | cons d n =>
      obtain ⟨k, v⟩ := c
      obtain ⟨k', v'⟩ := d
      have hd := wfFrom_cons.mp hn
      have hkk : k = k' := by
        rcases Nat.lt_trichotomy k k' with h1 | h1 | h1
        · exact absurd (by simpa [Memory.readCell, h1] using h k) hc.2.2.1
        · exact h1
        · exact absurd (by simpa [Memory.readCell, h1] using (h k').symm) hd.2.2.1
      subst hkk
      have hv : v = v' := by simpa [Memory.readCell] using h k
      have htail : m = n := by
        refine ih hc.2.2.2 hd.2.2.2 fun j => ?_
        rcases Nat.lt_or_ge j (k + 1) with hj | hj
        · rw [readCell_below hc.2.2.2 hj, readCell_below hd.2.2.2 hj]
        · simpa [Memory.readCell, show ¬ j < k by omega, show j ≠ k by omega] using h j
      rw [hv, htail]

/-- `wordsFrom` lists one Word for each address. -/
@[simp] theorem length_wordsFrom (m : Memory) (a n : Nat) : (m.wordsFrom a n).length = n := by
  induction n generalizing a with
  | zero => rfl
  | succ n ih => simp [Memory.wordsFrom, ih]

/-- The Word of `wordsFrom` at position `i` is the Word at address `a + i`. -/
theorem getElem_wordsFrom (m : Memory) {a n i : Nat} (h : i < (m.wordsFrom a n).length) :
    (m.wordsFrom a n)[i] = m.readWord (a + i) := by
  induction n generalizing a i with
  | zero => simp [Memory.wordsFrom] at h
  | succ n ih =>
    cases i with
    | zero => simp [Memory.wordsFrom]
    | succ i =>
      simp only [Memory.wordsFrom, List.getElem_cons_succ]
      rw [ih]
      congr 1
      omega

end Sys2Proof.Machine
end

