-- ==== Sys2Proof/Laws/State.lean ====
section
/-! SUPPORT. One lemma per field per update of State, so that no later proof unfolds a record update. -/

namespace Sys2Proof.Machine

section
variable (s : State) (r : RegNum) (v : Word) (a : Nat) (kind : FaultKind)

@[simp] theorem readReg_writeReg_same : (s.writeReg r v).readReg r = v := by
  simp [State.writeReg, State.readReg]

@[simp] theorem readReg_writeReg_ne {r r' : RegNum} (h : r' ≠ r) : (s.writeReg r v).readReg r' = s.readReg r' := by
  have h' : r.val ≠ r'.val := fun e => h (Fin.ext e.symm)
  simp [State.writeReg, State.readReg, h']

theorem readReg_writeReg (r' : RegNum) : (s.writeReg r v).readReg r' = if r' = r then v else s.readReg r' := by
  by_cases h : r' = r
  · simp [h]
  · simp [h]

@[simp] theorem writeReg_pc : (s.writeReg r v).pc = s.pc := rfl
@[simp] theorem writeReg_mem : (s.writeReg r v).mem = s.mem := rfl
@[simp] theorem writeReg_loadedWordCount : (s.writeReg r v).loadedWordCount = s.loadedWordCount := rfl
@[simp] theorem writeReg_instCount : (s.writeReg r v).instCount = s.instCount := rfl
@[simp] theorem writeReg_runState : (s.writeReg r v).runState = s.runState := rfl
@[simp] theorem writeReg_instBudget : (s.writeReg r v).instBudget = s.instBudget := rfl
@[simp] theorem writeReg_memRead : (s.writeReg r v).memRead a = s.memRead a := rfl

@[simp] theorem memWrite_regs : (s.memWrite a v).regs = s.regs := rfl
@[simp] theorem memWrite_readReg : (s.memWrite a v).readReg r = s.readReg r := rfl
@[simp] theorem memWrite_pc : (s.memWrite a v).pc = s.pc := rfl
@[simp] theorem memWrite_mem : (s.memWrite a v).mem = s.mem.writeWord a v := rfl
@[simp] theorem memWrite_loadedWordCount : (s.memWrite a v).loadedWordCount = s.loadedWordCount := rfl
@[simp] theorem memWrite_instCount : (s.memWrite a v).instCount = s.instCount := rfl
@[simp] theorem memWrite_runState : (s.memWrite a v).runState = s.runState := rfl
@[simp] theorem memWrite_instBudget : (s.memWrite a v).instBudget = s.instBudget := rfl

@[simp] theorem raise_regs : (raise kind s).regs = s.regs := rfl
@[simp] theorem raise_readReg : (raise kind s).readReg r = s.readReg r := rfl
@[simp] theorem raise_pc : (raise kind s).pc = s.pc := rfl
@[simp] theorem raise_mem : (raise kind s).mem = s.mem := rfl
@[simp] theorem raise_loadedWordCount : (raise kind s).loadedWordCount = s.loadedWordCount := rfl
@[simp] theorem raise_instCount : (raise kind s).instCount = s.instCount := rfl
@[simp] theorem raise_runState : (raise kind s).runState = .faulted kind := rfl
@[simp] theorem raise_instBudget : (raise kind s).instBudget = s.instBudget := rfl

@[simp] theorem advance_regs : (advance s).regs = s.regs := rfl
@[simp] theorem advance_readReg : (advance s).readReg r = s.readReg r := rfl
@[simp] theorem advance_pc : (advance s).pc = s.pc + 1 := rfl
@[simp] theorem advance_mem : (advance s).mem = s.mem := rfl
@[simp] theorem advance_loadedWordCount : (advance s).loadedWordCount = s.loadedWordCount := rfl
@[simp] theorem advance_instCount : (advance s).instCount = s.instCount := rfl
@[simp] theorem advance_runState : (advance s).runState = s.runState := rfl
@[simp] theorem advance_instBudget : (advance s).instBudget = s.instBudget := rfl

@[simp] theorem count_regs : (count s).regs = s.regs := rfl
@[simp] theorem count_readReg : (count s).readReg r = s.readReg r := rfl
@[simp] theorem count_pc : (count s).pc = s.pc := rfl
@[simp] theorem count_mem : (count s).mem = s.mem := rfl
@[simp] theorem count_loadedWordCount : (count s).loadedWordCount = s.loadedWordCount := rfl
@[simp] theorem count_instCount : (count s).instCount = s.instCount + 1 := rfl
@[simp] theorem count_runState : (count s).runState = s.runState := rfl
@[simp] theorem count_instBudget : (count s).instBudget = s.instBudget := rfl

end

/-- Two states that agree in every field and every register are equal. -/
theorem State.ext_fields {s t : State} (regs : ∀ r, s.readReg r = t.readReg r) (pc : s.pc = t.pc) (mem : s.mem = t.mem)
    (loaded : s.loadedWordCount = t.loadedWordCount) (cnt : s.instCount = t.instCount) (run : s.runState = t.runState)
    (budget : s.instBudget = t.instBudget) : s = t := by
  have hregs : s.regs = t.regs := Vector.ext fun i hi => regs ⟨i, hi⟩
  cases s
  cases t
  simp_all

end Sys2Proof.Machine
end

