-- ==== Sys2Proof/Laws/Ops.lean ====
section
/-! SUPPORT. For each shared operation, once, everything it can do; and that every body answers a next state. -/

namespace Sys2Proof.Machine

/-- R56: the three outcomes of the data-address check. -/
theorem checkAddress_cases (ea : Int) :
    (ea < 0 ∧ checkAddress ea = .error (.negativeAddress ea)) ∨
    (65536 ≤ ea ∧ checkAddress ea = .error (.memoryOutOfRange ea)) ∨
    (0 ≤ ea ∧ ea < 65536 ∧ checkAddress ea = .ok ea.toNat) := by
  unfold checkAddress
  by_cases h1 : ea < 0
  · exact .inl ⟨h1, by simp [h1]⟩
  · by_cases h2 : 65536 ≤ ea
    · exact .inr (.inl ⟨h2, by simp [h1, h2]⟩)
    · exact .inr (.inr ⟨by omega, by omega, by simp [h1, h2]⟩)

/-- R140, R150: the two outcomes of a change of `pc`. -/
theorem jumpTo_cases (t : Int) (s : State) :
    (t < 0 ∧ jumpTo t s = raise (.negativeAddress t) s) ∨ (0 ≤ t ∧ jumpTo t s = { s with pc := t }) := by
  unfold jumpTo
  by_cases h : t < 0
  · exact .inl ⟨h, by simp [h]⟩
  · exact .inr ⟨by omega, by simp [h]⟩

/-- A change of `pc`, or the fault it raises, leaves every register as it was. -/
@[simp] theorem readReg_jumpTo (t : Int) (s : State) (r : RegNum) : (jumpTo t s).readReg r = s.readReg r := by
  rcases jumpTo_cases t s with ⟨_, e⟩ | ⟨_, e⟩ <;> rw [e] <;> rfl

/-- R9, R78: the sign-extended Word has the field's signed value. -/
theorem sint_sext32 (v : Offset) : sint (sext32 v) = sint16 v := by
  have h1 : -32768 ≤ v.toInt := by have := BitVec.le_toInt v; norm_num at this; exact this
  have h2 : v.toInt < 32768 := by have := BitVec.toInt_lt (x := v); norm_num at this; exact this
  simp only [sint, sext32, sint16, wordOf, BitVec.toInt_ofInt]
  rw [Int.bmod_eq_of_le] <;> norm_num <;> omega

/-- R9: the zero-extended Word has the field's unsigned value. -/
theorem uint_zext32 (v : Offset) : uint (zext32 v) = v.toNat := by
  have := v.isLt
  simp only [uint, zext32, BitVec.toNat_setWidth]
  omega

/-- R106, R107: what follows a body: nothing after a fault; the count after a `halt`; the count after any other
instruction, and the fuse's fault where the ceiling is reached. -/
theorem finish_cases (s : State) :
    (∃ kind, s.runState = .faulted kind ∧ finish s = s) ∨
    (s.runState = .halted ∧ finish s = count s) ∨
    (s.runState = .running ∧ (count s).budgetReached = false ∧ finish s = count s) ∨
    (s.runState = .running ∧ (count s).budgetReached = true ∧
      finish s = raise (.runtimeBudgetExceeded (s.instCount + 1)) (count s)) := by
  unfold finish fuse
  cases h : s.runState with
  | faulted kind => exact .inl ⟨kind, rfl, rfl⟩
  | halted => exact .inr (.inl ⟨rfl, by simp [h]⟩)
  | running =>
    cases hb : (count s).budgetReached with
    | false => exact .inr (.inr (.inl ⟨rfl, rfl, by simp [h]⟩))
    | true => exact .inr (.inr (.inr ⟨rfl, rfl, by simp [h]⟩))

/-- R107: when the ceiling is reached. -/
theorem budgetReached_iff (s : State) : s.budgetReached = true ↔ ∃ b, s.instBudget = some b ∧ b ≤ s.instCount := by
  unfold State.budgetReached
  cases s.instBudget <;> simp

/-- What a body answers, by instruction: always a next state, because no instruction is illegal (R81) and a fault of
the machine is a next state (R213). -/
theorem exec_cases (i : Instr) (s : State) :
    match i with
    | .add a b d => exec i s = .next (s.writeReg d (addWords (s.readReg a) (s.readReg b)))
    | .nor a b d => exec i s = .next (s.writeReg d (norWords (s.readReg a) (s.readReg b)))
    | .lw a b o =>
      (effectiveAddress s a o < 0 ∧ exec i s = .next (raise (.negativeAddress (effectiveAddress s a o)) s)) ∨
      (65536 ≤ effectiveAddress s a o ∧ exec i s = .next (raise (.memoryOutOfRange (effectiveAddress s a o)) s)) ∨
      (0 ≤ effectiveAddress s a o ∧ effectiveAddress s a o < 65536 ∧
        exec i s = .next (s.writeReg b (s.memRead (effectiveAddress s a o).toNat)))
    | .sw a b o =>
      (effectiveAddress s a o < 0 ∧ exec i s = .next (raise (.negativeAddress (effectiveAddress s a o)) s)) ∨
      (65536 ≤ effectiveAddress s a o ∧ exec i s = .next (raise (.memoryOutOfRange (effectiveAddress s a o)) s)) ∨
      (0 ≤ effectiveAddress s a o ∧ effectiveAddress s a o < 65536 ∧
        exec i s = .next (s.memWrite (effectiveAddress s a o).toNat (s.readReg b)))
    | .beq a b o =>
      (s.readReg a ≠ s.readReg b ∧ exec i s = .next s) ∨
      (s.readReg a = s.readReg b ∧ exec i s = .next (jumpTo (s.pc + sint16 o) s))
    | .jalr a b => exec i s = .next (jumpTo (sint (s.readReg a)) (s.writeReg b (wordOf s.pc)))
    | .halt => exec i s = .next { s with runState := .halted }
    | .noop => exec i s = .next s := by
  cases i with
  | add a b d => rfl
  | nor a b d => rfl
  | lw a b o =>
    rcases checkAddress_cases (effectiveAddress s a o) with ⟨h, e⟩ | ⟨h, e⟩ | ⟨h, h', e⟩
    · exact .inl ⟨h, by simp [exec, execLw, e]⟩
    · exact .inr (.inl ⟨h, by simp [exec, execLw, e]⟩)
    · exact .inr (.inr ⟨h, h', by simp [exec, execLw, e]⟩)
  | sw a b o =>
    rcases checkAddress_cases (effectiveAddress s a o) with ⟨h, e⟩ | ⟨h, e⟩ | ⟨h, h', e⟩
    · exact .inl ⟨h, by simp [exec, execSw, e]⟩
    · exact .inr (.inl ⟨h, by simp [exec, execSw, e]⟩)
    · exact .inr (.inr ⟨h, h', by simp [exec, execSw, e]⟩)
  | beq a b o =>
    by_cases h : s.readReg a = s.readReg b
    · exact .inr ⟨h, by simp [exec, execBeq, regsEqual, h]⟩
    · exact .inl ⟨h, by simp [exec, execBeq, regsEqual, h]⟩
  | jalr a b => rfl
  | halt => rfl
  | noop => rfl

/-- Every body answers a next state. -/
theorem exec_next (i : Instr) (s : State) : ∃ t, exec i s = .next t := by
  have h := exec_cases i s
  cases i with
  | add a b d => exact ⟨_, h⟩
  | nor a b d => exact ⟨_, h⟩
  | lw a b o => rcases h with h | h | h; exacts [⟨_, h.2⟩, ⟨_, h.2⟩, ⟨_, h.2.2⟩]
  | sw a b o => rcases h with h | h | h; exacts [⟨_, h.2⟩, ⟨_, h.2⟩, ⟨_, h.2.2⟩]
  | beq a b o => rcases h with h | h; exacts [⟨_, h.2⟩, ⟨_, h.2⟩]
  | jalr a b => exact ⟨_, h⟩
  | halt => exact ⟨_, h⟩
  | noop => exact ⟨_, h⟩

/-- No body touches the counters or the fuse's ceiling. -/
theorem exec_keeps_counters {i : Instr} {s t : State} (h : exec i s = .next t) :
    t.instCount = s.instCount ∧ t.loadedWordCount = s.loadedWordCount ∧ t.instBudget = s.instBudget := by
  have hc := exec_cases i s
  cases i with
  | add a b d => rw [hc] at h; cases h; simp
  | nor a b d => rw [hc] at h; cases h; simp
  | lw a b o => rcases hc with ⟨_, hc⟩ | ⟨_, hc⟩ | ⟨_, _, hc⟩ <;> rw [hc] at h <;> cases h <;> simp
  | sw a b o => rcases hc with ⟨_, hc⟩ | ⟨_, hc⟩ | ⟨_, _, hc⟩ <;> rw [hc] at h <;> cases h <;> simp
  | beq a b o =>
    rcases hc with ⟨_, hc⟩ | ⟨_, hc⟩ <;> rw [hc] at h <;> cases h
    · simp
    · rcases jumpTo_cases (s.pc + sint16 o) s with ⟨_, e⟩ | ⟨_, e⟩ <;> simp [e]
  | jalr a b =>
    rw [hc] at h
    cases h
    rcases jumpTo_cases (sint (s.readReg a)) (s.writeReg b (wordOf s.pc)) with ⟨_, e⟩ | ⟨_, e⟩ <;> simp [e]
  | halt => rw [hc] at h; cases h; simp
  | noop => rw [hc] at h; cases h; simp

/-- What a body does to the run state: nothing, or `halt` halts, or one of the two address faults. -/
theorem exec_runState {i : Instr} {s t : State} (h : exec i s = .next t) :
    (t.runState = s.runState ∧ i ≠ .halt) ∨ (i = .halt ∧ t.runState = .halted) ∨
      (∃ v, t.runState = .faulted (.negativeAddress v)) ∨ (∃ v, t.runState = .faulted (.memoryOutOfRange v)) := by
  have hc := exec_cases i s
  cases i with
  | add a b d => rw [hc] at h; cases h; simp
  | nor a b d => rw [hc] at h; cases h; simp
  | lw a b o => rcases hc with ⟨_, hc⟩ | ⟨_, hc⟩ | ⟨_, _, hc⟩ <;> rw [hc] at h <;> cases h <;> simp
  | sw a b o => rcases hc with ⟨_, hc⟩ | ⟨_, hc⟩ | ⟨_, _, hc⟩ <;> rw [hc] at h <;> cases h <;> simp
  | beq a b o =>
    rcases hc with ⟨_, hc⟩ | ⟨_, hc⟩ <;> rw [hc] at h <;> cases h
    · simp
    · rcases jumpTo_cases (s.pc + sint16 o) s with ⟨_, e⟩ | ⟨_, e⟩ <;> simp [e]
  | jalr a b =>
    rw [hc] at h
    cases h
    rcases jumpTo_cases (sint (s.readReg a)) (s.writeReg b (wordOf s.pc)) with ⟨_, e⟩ | ⟨_, e⟩ <;> simp [e]
  | halt => rw [hc] at h; cases h; simp
  | noop => rw [hc] at h; cases h; simp

/-- Every body keeps memory in canonical form. -/
theorem exec_keeps_wf {i : Instr} {s t : State} (h : exec i s = .next t) (hw : s.mem.wf = true) : t.mem.wf = true := by
  have hc := exec_cases i s
  cases i with
  | add a b d => rw [hc] at h; cases h; simpa
  | nor a b d => rw [hc] at h; cases h; simpa
  | lw a b o => rcases hc with ⟨_, hc⟩ | ⟨_, hc⟩ | ⟨_, _, hc⟩ <;> rw [hc] at h <;> cases h <;> simpa
  | sw a b o =>
    rcases hc with ⟨_, hc⟩ | ⟨_, hc⟩ | ⟨_, _, hc⟩ <;> rw [hc] at h <;> cases h
    · simpa
    · simpa
    · exact wf_writeWord hw (show (effectiveAddress s a o).toNat < 65536 by omega) _
  | beq a b o =>
    rcases hc with ⟨_, hc⟩ | ⟨_, hc⟩ <;> rw [hc] at h <;> cases h
    · simpa
    · rcases jumpTo_cases (s.pc + sint16 o) s with ⟨_, e⟩ | ⟨_, e⟩ <;> simpa [e]
  | jalr a b =>
    rw [hc] at h
    cases h
    rcases jumpTo_cases (sint (s.readReg a)) (s.writeReg b (wordOf s.pc)) with ⟨_, e⟩ | ⟨_, e⟩ <;> simpa [e]
  | halt => rw [hc] at h; cases h; simpa
  | noop => rw [hc] at h; cases h; simpa

/-- What follows a body changes only `instCount` and `runState`. -/
theorem finish_keeps (s : State) :
    (finish s).mem = s.mem ∧ (finish s).pc = s.pc ∧ (finish s).loadedWordCount = s.loadedWordCount ∧
      (finish s).instBudget = s.instBudget ∧ ∀ r, (finish s).readReg r = s.readReg r := by
  rcases finish_cases s with ⟨_, _, e⟩ | ⟨_, e⟩ | ⟨_, _, e⟩ | ⟨_, _, e⟩ <;> rw [e] <;> simp

/-- The fetch inside the loaded range. -/
theorem fetch_inRange {s : State} (h : s.InFetchRange) : s.fetch = some (s.memRead s.pc.toNat) := by
  simp [State.fetch, h]

/-- The fetch outside the loaded range. -/
theorem fetch_outOfRange {s : State} (h : ¬ s.InFetchRange) : s.fetch = none := by
  simp [State.fetch, h]

/-- Everything a step that answers a next state can have done (R105): a fetch fault, or a body followed by `finish`. -/
theorem step_cases {s t : State} (h : step s = .next t) :
    s.runState = .running ∧
      ((¬ s.InFetchRange ∧ t = raise (.fetchOutOfRange s.pc) s) ∨
       (s.InFetchRange ∧ ∃ u, exec (decode (s.memRead s.pc.toNat)) (advance s) = .next u ∧ t = finish u)) := by
  unfold step at h
  cases hr : s.runState with
  | halted => simp [hr] at h
  | faulted kind => simp [hr] at h
  | running =>
    refine ⟨rfl, ?_⟩
    by_cases hf : s.InFetchRange
    · obtain ⟨u, hu⟩ := exec_next (decode (s.memRead s.pc.toNat)) (advance s)
      refine .inr ⟨hf, u, hu, ?_⟩
      simpa [hr, fetch_inRange hf, hu, complete] using h.symm
    · refine .inl ⟨hf, ?_⟩
      simpa [hr, fetch_outOfRange hf] using h.symm

end Sys2Proof.Machine
end

