-- ==== Sys2Proof/Laws/PerInstr.lean ====
section
/-! SUPPORT. Facts about every instruction as syntax, one lemma per constructor: the opcode of its encoding (R80) and
the bound of its canonical Word (R84). -/

namespace Sys2Proof.Laws.EncodedOpcode

/-- R80: bits 24:22 of the encoding hold the instruction's opcode. -/
def Statement (i : Instr) : Prop := opcodeField (encode i) = i.opcode

theorem add (regA regB destReg : RegNum) : Statement (.add regA regB destReg) :=
  (fields_packFields _ _ _ (by have := destReg.isLt; simp; omega)).1

theorem nor (regA regB destReg : RegNum) : Statement (.nor regA regB destReg) :=
  (fields_packFields _ _ _ (by have := destReg.isLt; simp; omega)).1

theorem lw (regA regB : RegNum) (offset : Offset) : Statement (.lw regA regB offset) :=
  (fields_packFields _ _ _ (by have := offset.isLt; simp; omega)).1

theorem sw (regA regB : RegNum) (offset : Offset) : Statement (.sw regA regB offset) :=
  (fields_packFields _ _ _ (by have := offset.isLt; simp; omega)).1

theorem beq (regA regB : RegNum) (offset : Offset) : Statement (.beq regA regB offset) :=
  (fields_packFields _ _ _ (by have := offset.isLt; simp; omega)).1

theorem jalr (regA regB : RegNum) : Statement (.jalr regA regB) := (fields_packFields _ _ _ (by simp)).1

theorem halt : Statement .halt := (fields_packFields _ _ _ (by simp)).1

theorem noop : Statement .noop := (fields_packFields _ _ _ (by simp)).1

end Sys2Proof.Laws.EncodedOpcode

namespace Sys2Proof.Laws.CanonicalBound

/-- R84: a canonical instruction Word lies below 2^25, so the assembler writes it as a non-negative decimal. -/
def Statement (i : Instr) : Prop := (encode i).toNat < 33554432

/-- A packed Word lies below 2^25. -/
theorem packFields_bound (op : Fin 8) (regA regB : RegNum) {low : Word} (h : low.toNat < 65536) :
    (packFields op regA regB low).toNat < 33554432 := by
  have ho := op.isLt
  have ha := regA.isLt
  have hb := regB.isLt
  rw [packFields_toNat op regA regB h]
  omega

theorem add (regA regB destReg : RegNum) : Statement (.add regA regB destReg) :=
  packFields_bound _ _ _ (by have := destReg.isLt; simp; omega)

theorem nor (regA regB destReg : RegNum) : Statement (.nor regA regB destReg) :=
  packFields_bound _ _ _ (by have := destReg.isLt; simp; omega)

theorem lw (regA regB : RegNum) (offset : Offset) : Statement (.lw regA regB offset) :=
  packFields_bound _ _ _ (by have := offset.isLt; simp; omega)

theorem sw (regA regB : RegNum) (offset : Offset) : Statement (.sw regA regB offset) :=
  packFields_bound _ _ _ (by have := offset.isLt; simp; omega)

theorem beq (regA regB : RegNum) (offset : Offset) : Statement (.beq regA regB offset) :=
  packFields_bound _ _ _ (by have := offset.isLt; simp; omega)

theorem jalr (regA regB : RegNum) : Statement (.jalr regA regB) := packFields_bound _ _ _ (by simp)

theorem halt : Statement .halt := packFields_bound _ _ _ (by simp)

theorem noop : Statement .noop := packFields_bound _ _ _ (by simp)

end Sys2Proof.Laws.CanonicalBound
end

