-- ==== Sys2Proof/Tests/Slice0.lean ====
section
/-! SUPPORT. Our own tests. Expected values come from the spec: the vectors of spec/95_test_vectors.md are named by their
ids. Then, for each statement with hypotheses, a witness that meets them, clause by clause at boundary values. -/

namespace Sys2Proof.Tests

open Sys2Proof.Machine

/-- The block loaded with the one Word `w`, ceiling `some 200` (the conventions of spec/95_test_vectors.md). -/
def oneWord (w : Word) : State := loadedState [w] (some 200)

/-- The next state of an outcome; any other outcome gives `none`. -/
def nextOf (o : Host.Outcome State Fault Refusal) : Option State :=
  match o with
  | .next t => some t
  | .fault _ => none
  | .refused _ => none

/-- One step of `s`, where it has one; else `s`. -/
def stepped (s : State) : State := (nextOf (step s)).getD s

/-- A token of text. -/
def tok (s : String) : Token := s.toList

/-! ### WellFormed -/

theorem test_wf_refuses_add_destination_zero : (Instr.add 1 2 0).wellFormed = false := by decide
theorem test_wf_refuses_nor_destination_zero : (Instr.nor 1 2 0).wellFormed = false := by decide
theorem test_wf_accepts_destination_seven : (Instr.add 1 2 7).wellFormed = true := by decide

/-! ### Decoding: words written out from R72, R73, R75, R76 and R80 -/

theorem test_decode_add : decode 0b0000000_000_001_010_0000000000000_011#32 = .add 1 2 3 := by decide
theorem test_decode_nor : decode 0b0000000_001_001_001_0000000000000_010#32 = .nor 1 1 2 := by decide
theorem test_decode_lw : decode 0b0000000_010_001_010_1111111111111111#32 = .lw 1 2 0xFFFF#16 := by decide
theorem test_decode_sw : decode 0b0000000_011_000_010_0000000000001001#32 = .sw 0 2 9#16 := by decide
theorem test_decode_beq : decode 0b0000000_100_000_001_0000000000000010#32 = .beq 0 1 2#16 := by decide
theorem test_decode_jalr : decode 0b0000000_101_100_111_0000000000000000#32 = .jalr 4 7 := by decide
theorem test_decode_halt : decode 0b0000000_110_0000000000000000000000#32 = .halt := by decide
theorem test_decode_noop : decode 0b0000000_111_0000000000000000000000#32 = .noop := by decide
/-- H2 and O2: undecoded bits are ignored. -/
theorem test_decode_ignores_high_bits : decode 0xFF800000#32 = .halt ∧ decode 0xFFFFFFFF#32 = .noop := by decide
/-- C1: bits 2:0 of a `jalr` Word are no link register. -/
theorem test_decode_jalr_ignores_low_bits : decode 0x01530007#32 = .jalr 2 3 := by decide
/-- The decimal Words of W2, W1, W4 and W5. -/
theorem test_encode_words : encode (.add 1 2 3) = 655363#32 ∧ encode (.lw 0 1 100#16) = 8454244#32 ∧
    encode (.beq 0 0 0xFFFF#16) = 16842751#32 ∧ encode (.jalr 2 3) = 22216704#32 := by decide
theorem test_decodeTableWord : decodeTableWord 32 0x00490002 = some (.nor 1 1 2) ∧ decodeTableWord 33 0 = none := by decide

/-! ### One step of each instruction -/

/-- A2: the sum wraps. -/
theorem test_add_wraps : (stepped (((oneWord 0x000A0003#32).writeReg 1 2147483647#32).writeReg 2 1#32)).readReg 3
    = 0x80000000#32 := by decide
/-- A6: register 0 is writable. -/
theorem test_add_writes_register_zero : (stepped ((oneWord 0x00080000#32).writeReg 1 9#32)).readReg 0 = 9#32 := by decide
/-- N3. -/
theorem test_nor_all_bits_set : (stepped (((oneWord 0x004A0003#32).writeReg 1 0x0F0F0F0F#32).writeReg 2 0xF0F0F0F0#32)).readReg 3
    = 0#32 := by decide
/-- N4: the destination is a source. -/
theorem test_nor_reads_before_write : (stepped (((oneWord 0x004A0001#32).writeReg 1 1#32).writeReg 2 2#32)).readReg 1
    = 0xFFFFFFFC#32 := by decide
/-- L1, L2. -/
theorem test_lw_negative_offset_and_own_base :
    (stepped (((oneWord 0x008AFFFF#32).writeReg 1 5#32).memWrite 4 42#32)).readReg 2 = 42#32 ∧
    (stepped (((oneWord 0x00890000#32).writeReg 1 7#32).memWrite 7 99#32)).readReg 1 = 99#32 := by decide
/-- L7: the effective address is exact. -/
theorem test_lw_exact_address : (stepped ((oneWord 0x008A8000#32).writeReg 1 0x80000000#32)).runState
    = .faulted (.negativeAddress (-2147516416)) := by decide
/-- S3: the last Word of memory; the loaded-word count stays. -/
theorem test_sw_last_word :
    (stepped (((oneWord 0x00CA0000#32).writeReg 1 65535#32).writeReg 2 5#32)).memRead 65535 = 5#32 ∧
    (stepped (((oneWord 0x00CA0000#32).writeReg 1 65535#32).writeReg 2 5#32)).loadedWordCount = 1 := by decide
/-- S4. -/
theorem test_sw_beyond_memory : (stepped (((oneWord 0x00CA0001#32).writeReg 1 65535#32).writeReg 2 5#32)).runState
    = .faulted (.memoryOutOfRange 65536) := by decide
/-- B3, B6: to itself, and forward on equal negative Words. -/
theorem test_beq_taken : (stepped (oneWord 0x0100FFFF#32)).pc = 0 ∧
    (stepped (((oneWord 0x010A0005#32).writeReg 1 0xFFFFFFFF#32).writeReg 2 0xFFFFFFFF#32)).pc = 6 := by decide
/-- B4, B7: a negative target faults where taken only. -/
theorem test_beq_negative_target : (stepped (oneWord 0x0100FFFE#32)).runState = .faulted (.negativeAddress (-1)) ∧
    (stepped ((oneWord 0x0101FFFB#32).writeReg 1 1#32)).pc = 1 := by decide
/-- J2, at address 1: the target is the register's old value. -/
theorem test_jalr_same_register :
    (stepped { (loadedState [0#32, 0x015B0000#32] none).writeReg 3 3#32 with pc := 1 }).readReg 3 = 2#32 ∧
    (stepped { (loadedState [0#32, 0x015B0000#32] none).writeReg 3 3#32 with pc := 1 }).pc = 3 := by decide
/-- J3: the link is written before the fault, and the instruction is not counted. -/
theorem test_jalr_negative_target :
    (stepped ((oneWord 0x014A0000#32).writeReg 1 0xFFFFFFFF#32)).runState = .faulted (.negativeAddress (-1)) ∧
    (stepped ((oneWord 0x014A0000#32).writeReg 1 0xFFFFFFFF#32)).readReg 2 = 1#32 ∧
    (stepped ((oneWord 0x014A0000#32).writeReg 1 0xFFFFFFFF#32)).instCount = 0 := by decide
/-- H1 at address 0, and F2: a `halt` at the ceiling halts. -/
theorem test_halt_at_ceiling : (stepped { oneWord 0x01800000#32 with instBudget := some 1 }).runState = .halted ∧
    (stepped { oneWord 0x01800000#32 with instBudget := some 1 }).pc = 1 ∧
    (stepped { oneWord 0x01800000#32 with instBudget := some 1 }).instCount = 1 := by decide
/-- O1. -/
theorem test_noop_advances : (stepped (oneWord 0x01C00000#32)).pc = 1 ∧
    (stepped (oneWord 0x01C00000#32)).instCount = 1 ∧ (stepped (oneWord 0x01C00000#32)).runState = .running := by decide
/-- F3's last step: the fuse, with `instCount` as its information. -/
theorem test_fuse_fires : (stepped { oneWord 0x01C00000#32 with instCount := 2, instBudget := some 3 }).runState
    = .faulted (.runtimeBudgetExceeded 3) := by decide
/-- F1: the empty image, which is also `State.reset`. -/
theorem test_reset_is_load_of_nothing : load [] Config.resetBudget (oneWord 0#32) = State.reset ∧
    (stepped State.reset).runState = .faulted (.fetchOutOfRange 0) := by decide
/-- A Word placed by the host's helper runs as the first instruction after reset. -/
theorem test_withFetchWord_runs : (stepped (State.reset.withFetchWord 32 0x00400003)).readReg 3 = 0xFFFFFFFF#32 := by decide

/-! ### Load and assembler -/

/-- F6, F7, F9. -/
theorem test_load_records :
    (load [tok "5", tok "12a"] none State.reset).runState = .faulted .malformedMemoryRecord ∧
    (load [tok "2147483648"] none State.reset).runState = .faulted .malformedMemoryRecord ∧
    (load [tok "-2147483648"] none State.reset).memRead 0 = 0x80000000#32 := by decide

/-- A source line whose tokens after the label are `ts`. -/
def line (label : String) (ts : List String) : SourceLine :=
  { length := 10, record := some (SourceRecord.ofTokens (tok label) (ts.map tok)) }

/-- The four lines that W3 and W4 speak of: `.fill L`, a blank line, `beq 0 0 L`, `L halt extra` (C4, D23). -/
def labelSource : List SourceLine :=
  [line "" [".fill", "L"], { length := 0, record := none }, line "" ["beq", "0", "0", "L"], line "L" ["halt", "extra"]]

/-- Whether an assembly gave these Words. -/
def gives (r : Except AsmError (List Word)) (ws : List Word) : Bool :=
  match r with
  | .ok v => v == ws
  | .error _ => false

/-- Whether an assembly failed with this error. -/
def failsWith (r : Except AsmError (List Word)) (e : AsmError) : Bool :=
  match r with
  | .ok _ => false
  | .error e' => e' == e

theorem test_assemble_labels : gives (assemble 80 labelSource) [2#32, 16777216#32, 25165824#32] = true := by decide
/-- W6, W7 (X2), X3, X4, X5, W8 and R172. -/
theorem test_assemble_errors :
    failsWith (assemble 80 [line "" ["add", "8", "1", "2"]]) .invalidRegister = true ∧
    failsWith (assemble 80 [line "" ["nor", "1", "2", "0"]]) .invalidRegister = true ∧
    failsWith (assemble 80 [line "" ["lw", "0", "1", "32768"]]) .offsetRange = true ∧
    failsWith (assemble 80 [line "" ["beq", "0", "0", "nowhere"]]) .undefinedLabel = true ∧
    failsWith (assemble 80 [line "" ["mul", "1", "2", "3"]]) .unsupportedOpcode = true ∧
    failsWith (assemble 80 [line "" [".fill", "4294967296"]]) .fillRange = true ∧
    failsWith (assemble 80 [line "a" ["noop"], line "a" ["halt"]]) .duplicateLabel = true ∧
    failsWith (assemble 9 [line "" ["noop"]]) .lineTooLong = true := by decide
/-- W7 (X1) and X6. -/
theorem test_assemble_numbers : gives (assemble 80 [line "" ["lw", "0", "1", "32767"], line "" ["lw", "0", "1", "-32768"],
    line "" [".fill", "-1"]]) [8486911#32, 8486912#32, 0xFFFFFFFF#32] = true := by decide
theorem test_output_lines : outputLines [0xFFFFFFFF#32, 8454244#32] = [tok "-1", tok "8454244"] := by decide

/-! ### Witnesses: the hypotheses of each statement can be met -/

theorem witness_IgnoredBitsHaveNoEffect : 0xFE00FFF8#32 &&& 0x01C00000#32 = 0x00000000#32 ∧
    0xFE40FFF8#32 &&& 0x01C00000#32 = 0x00400000#32 ∧ 0xFF40FFFF#32 &&& 0x01C00000#32 = 0x01400000#32 ∧
    0xFFBFFFFF#32 &&& 0x01C00000#32 = 0x01800000#32 ∧ 0xFFFFFFFF#32 &&& 0x01C00000#32 = 0x01C00000#32 := by decide

theorem witness_DecodeFollowsOpcodeMap : ∀ op : Fin 8,
    ((5 : RegNum).val = (BitVec.ofNat 32 (op.val * 4194304 + 0xFE2FFFFE)).toNat / 2 ^ 19 % 8 ∧
    (7 : RegNum).val = (BitVec.ofNat 32 (op.val * 4194304 + 0xFE2FFFFE)).toNat / 2 ^ 16 % 8 ∧
    (6 : RegNum).val = (BitVec.ofNat 32 (op.val * 4194304 + 0xFE2FFFFE)).toNat % 8 ∧
    (0xFFFE#16).toNat = (BitVec.ofNat 32 (op.val * 4194304 + 0xFE2FFFFE)).toNat % 2 ^ 16) ∧
    BitVec.ofNat 32 (op.val * 4194304 + 0xFE2FFFFE) &&& 0x01C00000#32 = BitVec.ofNat 32 (op.val * 4194304) := by decide

/-- A running block with a next state; a halted one; a faulted one. -/
theorem witness_StepExistsExactlyWhileRunning : (∃ t, step (oneWord 0x01C00000#32) = .next t) ∧
    (oneWord 0x01C00000#32).runState = .running ∧ (stepped (oneWord 0x01800000#32)).runState = .halted ∧
    (stepped State.reset).runState = .faulted (.fetchOutOfRange 0) := ⟨⟨_, rfl⟩, by decide⟩

theorem witness_StoppedBlockAnswersNamedFault : (stepped (oneWord 0x01800000#32)).runState = .halted ∧
    (stepped State.reset).runState = .faulted (.fetchOutOfRange 0) := by decide

theorem witness_FetchIsBoundedByLoadedRange :
    (({ oneWord 0#32 with pc := -1 } : State).runState = .running ∧ ({ oneWord 0#32 with pc := -1 } : State).pc < 0) ∧
    (({ oneWord 0#32 with pc := 1 } : State).runState = .running ∧
      (({ oneWord 0#32 with pc := 1 } : State).loadedWordCount.val : Int) ≤ ({ oneWord 0#32 with pc := 1 } : State).pc) ∧
    (0 ≤ (oneWord 0#32).pc ∧ (oneWord 0#32).pc < ((oneWord 0#32).loadedWordCount.val : Int)) := by decide

/-- A fault (`beq 0 0 -2`), a `halt`, a `noop` at the ceiling, one below it, and one with no ceiling. -/
theorem witness_StepRunsDecodedInstruction :
    ((oneWord 0x0100FFFE#32).runState = .running ∧ 0 ≤ (oneWord 0x0100FFFE#32).pc ∧
      (oneWord 0x0100FFFE#32).pc < ((oneWord 0x0100FFFE#32).loadedWordCount.val : Int) ∧
      decode ((oneWord 0x0100FFFE#32).mem.readWord 0) = .beq 0 0 0xFFFE#16) ∧
    (∃ t, exec (.beq 0 0 0xFFFE#16) (advance (oneWord 0x0100FFFE#32)) = .next t ∧ t.runState = .faulted (.negativeAddress (-1))) ∧
    (∃ t, exec .halt (advance (oneWord 0x01800000#32)) = .next t ∧ t.runState = .halted) ∧
    (∃ t, exec .noop (advance { oneWord 0x01C00000#32 with instBudget := some 1 }) = .next t ∧ t.runState = .running ∧
      t.instBudget = some 1 ∧ 1 ≤ t.instCount + 1) ∧
    (∃ t, exec .noop (advance { oneWord 0x01C00000#32 with instBudget := some 2 }) = .next t ∧ t.runState = .running ∧
      t.instBudget = some 2 ∧ t.instCount + 1 < 2) ∧
    (∃ t, exec .noop (advance { oneWord 0x01C00000#32 with instBudget := none }) = .next t ∧ t.runState = .running ∧
      t.instBudget = none) :=
  ⟨by decide, ⟨_, rfl, rfl⟩, ⟨_, rfl, rfl⟩, ⟨_, rfl, rfl, rfl, by decide⟩, ⟨_, rfl, rfl, rfl, by decide⟩, ⟨_, rfl, rfl, rfl⟩⟩

theorem witness_StepCountsCompletedInstructions :
    (∃ t, step (oneWord 0x01C00000#32) = .next t ∧ t.runState = .running) ∧
    (∃ t, step (oneWord 0x01800000#32) = .next t ∧ t.runState = .halted) ∧
    (∃ t, step { oneWord 0x01C00000#32 with instBudget := some 1 } = .next t ∧ t.runState = .faulted (.runtimeBudgetExceeded 1)) ∧
    (∃ t, step State.reset = .next t ∧ t.runState = .faulted (.fetchOutOfRange 0)) :=
  ⟨⟨_, rfl, rfl⟩, ⟨_, rfl, rfl⟩, ⟨_, rfl, rfl⟩, ⟨_, rfl, rfl⟩⟩

theorem witness_FuseFiresExactlyAtCeiling :
    (∃ t, step { oneWord 0x01C00000#32 with instBudget := some 2 } = .next t ∧ t.runState = .running) ∧
    (∃ t, step { oneWord 0x01C00000#32 with instBudget := some 1 } = .next t ∧ t.runState = .faulted (.runtimeBudgetExceeded 1)) ∧
    (∃ t, step { oneWord 0x01C00000#32 with instBudget := none } = .next t) ∧
    ((oneWord 0x01800000#32).runState = .running ∧ (oneWord 0x01800000#32).InFetchRange ∧
      decode ((oneWord 0x01800000#32).mem.readWord 0) = .halt) :=
  ⟨⟨_, rfl, rfl⟩, ⟨_, rfl, rfl⟩, ⟨_, rfl⟩, by decide⟩

theorem witness_RunExecutesAtMostBudget : loadError [tok "29360128"] = none ∧ 1 ≤ 1 ∧
    Reaches (load [tok "29360128"] (some 1) State.reset) (stepped (load [tok "29360128"] (some 1) State.reset)) :=
  ⟨by decide, by decide, .tail _ _ .refl rfl⟩

theorem witness_RunningPcStaysInRange : (∃ t, step (oneWord 0x0100FFFF#32) = .next t ∧ t.runState = .running ∧ t.pc = 0) ∧
    (∃ t, step ((oneWord 0x014A0000#32).writeReg 1 0x7FFFFFFF#32) = .next t ∧ t.runState = .running ∧ t.pc = 2147483647) :=
  ⟨⟨_, rfl, rfl, by decide⟩, ⟨_, rfl, rfl, by decide⟩⟩

theorem witness_StepKeepsInvariant : (oneWord 0x01C00000#32).Inv ∧ ∃ t, step (oneWord 0x01C00000#32) = .next t :=
  ⟨⟨by decide, fun _ => by decide, fun b h _ => by
    have hb : b = 200 := by simpa [oneWord, loadedState] using h.symm
    subst hb; decide⟩, ⟨_, rfl⟩⟩

theorem witness_LoadMeetsInvariant : loadError [tok "-2147483648", tok "+2147483647"] = none := by decide

theorem witness_StepKeepsLoadedWordCount : ∃ t, step (oneWord 0x00C20009#32) = .next t := ⟨_, rfl⟩

/-- The fetch's fault, the fuse's, a body's; then each body that can fault. -/
theorem witness_FaultsAreThoseListed :
    (∃ t, step State.reset = .next t ∧ t.runState = .faulted (.fetchOutOfRange 0)) ∧
    (∃ t, step { oneWord 0x01C00000#32 with instBudget := some 1 } = .next t ∧ t.runState = .faulted (.runtimeBudgetExceeded 1)) ∧
    (∃ t, step (oneWord 0x0100FFFE#32) = .next t ∧ t.runState = .faulted (.negativeAddress (-1))) ∧
    (oneWord 0#32).runState = .running ∧
    (∃ t, exec (.lw 0 1 0xFFFF#16) (oneWord 0#32) = .next t ∧ t.runState = .faulted (.negativeAddress (-1))) ∧
    (∃ t, exec (.sw 1 2 1#16) ((oneWord 0#32).writeReg 1 65535#32) = .next t ∧ t.runState = .faulted (.memoryOutOfRange 65536)) ∧
    (∃ t, exec (.beq 0 0 0xFFFF#16) (oneWord 0#32) = .next t ∧ t.runState = .faulted (.negativeAddress (-1))) ∧
    (∃ t, exec (.jalr 1 2) ((oneWord 0#32).writeReg 1 0xFFFFFFFF#32) = .next t ∧ t.runState = .faulted (.negativeAddress (-1))) :=
  ⟨⟨_, rfl, rfl⟩, ⟨_, rfl, rfl⟩, ⟨_, rfl, by decide⟩, by decide, ⟨_, rfl, by decide⟩, ⟨_, rfl, by decide⟩,
    ⟨_, rfl, by decide⟩, ⟨_, rfl, by decide⟩⟩

theorem witness_StepRaisesOnlyRunFaults : ∃ t, step (oneWord 0x0081FFFF#32) = .next t ∧
    t.runState = .faulted (.negativeAddress (-1)) := ⟨_, rfl, by decide⟩

theorem witness_FaultingAddressIsFetchAddress : (∃ t, step (oneWord 0x0081FFFF#32) = .next t ∧
    t.runState = .faulted (.negativeAddress (-1))) ∧ (∀ c, FaultKind.negativeAddress (-1) ≠ .runtimeBudgetExceeded c) :=
  ⟨⟨_, rfl, by decide⟩, fun _ h => by cases h⟩

theorem witness_OnlyHaltHalts : (oneWord 0#32).runState = .running ∧ (∃ t, exec .halt (oneWord 0#32) = .next t) ∧
    ∃ t, exec .noop (oneWord 0#32) = .next t := ⟨by decide, ⟨_, rfl⟩, ⟨_, rfl⟩⟩

theorem witness_FetchWordRunsNext : State.reset.mem.wf = true ∧ decodeTableWord 32 0x01C00000 = some .noop ∧
    ∃ t, exec .noop (advance (State.reset.withFetchWord 32 0x01C00000)) = .next t := ⟨by decide, by decide, ⟨_, rfl⟩⟩

theorem witness_MemReadAfterMemWrite : Memory.wf [(262143, 1#8)] = true ∧ 65535 < 65536 ∧ 0 < 65536 := by decide

theorem witness_ObservationDeterminesState : (oneWord 5#32).mem.wf = true ∧ (oneWord 5#32).observe = (oneWord 5#32).observe ∧
    (oneWord 5#32).instBudget = (oneWord 5#32).instBudget := ⟨by decide, rfl, rfl⟩

theorem witness_ObserveReturnsEverything : 0 < 65536 ∧ 65535 < 65536 := by decide

theorem witness_OutOfRangeAccessWritesNothing :
    sint ((oneWord 0#32).readReg 0) + sint16 0xFFFF#16 < 0 ∧
    65536 ≤ sint (((oneWord 0#32).writeReg 1 65536#32).readReg 1) + sint16 0#16 := by decide

/-- The addresses 0 and 65535, and both sides of the range. -/
theorem witness_LwLoadsWordOrFaults :
    (0 ≤ sint ((oneWord 0#32).readReg 0) + sint16 0#16 ∧ sint ((oneWord 0#32).readReg 0) + sint16 0#16 < 65536) ∧
    (0 ≤ sint (((oneWord 0#32).writeReg 1 32768#32).readReg 1) + sint16 0x7FFF#16 ∧
      sint (((oneWord 0#32).writeReg 1 32768#32).readReg 1) + sint16 0x7FFF#16 < 65536) ∧
    sint ((oneWord 0#32).readReg 0) + sint16 0xFFFF#16 < 0 ∧
    65536 ≤ sint (((oneWord 0#32).writeReg 1 65536#32).readReg 1) + sint16 0#16 ∧
    0xFE810064#32 &&& 0x01FFFFFF#32 = encode (.lw 0 1 100#16) := by decide

theorem witness_SwStoresWordOrFaults : (oneWord 0#32).mem.wf = true ∧
    (0 ≤ sint ((oneWord 0#32).readReg 0) + sint16 0#16 ∧ sint ((oneWord 0#32).readReg 0) + sint16 0#16 < 65536) ∧
    (((oneWord 0#32).writeReg 1 65535#32).mem.wf = true ∧ 0 ≤ sint (((oneWord 0#32).writeReg 1 65535#32).readReg 1) + sint16 0#16 ∧
      sint (((oneWord 0#32).writeReg 1 65535#32).readReg 1) + sint16 0#16 < 65536) ∧
    sint ((oneWord 0#32).readReg 0) + sint16 0xFFFF#16 < 0 ∧
    65536 ≤ sint (((oneWord 0#32).writeReg 1 65535#32).readReg 1) + sint16 1#16 ∧
    0xFEC20009#32 &&& 0x01FFFFFF#32 = encode (.sw 0 2 9#16) := by decide

theorem witness_LoadAfterStoreReturnsStoredWord : (oneWord 0#32).mem.wf = true ∧
    0 ≤ sint ((oneWord 0#32).readReg 0) + sint16 9#16 ∧ sint ((oneWord 0#32).readReg 0) + sint16 9#16 < 65536 ∧
    ∃ t, exec (.sw 0 2 9#16) (oneWord 0#32) = .next t ∧
      sint (t.readReg 0) + sint16 9#16 = sint ((oneWord 0#32).readReg 0) + sint16 9#16 :=
  ⟨by decide, by decide, by decide, ⟨_, rfl, by decide⟩⟩

theorem witness_FetchSeesStoreAtOnce : (oneWord 0#32).mem.wf = true ∧ (oneWord 0#32).InFetchRange ∧
    (∃ t, exec (.sw 0 2 0#16) (oneWord 0#32) = .next t) ∧ sint ((oneWord 0#32).readReg 0) + sint16 0#16 = (oneWord 0#32).pc ∧
    (∃ t, exec (.sw 0 2 1#16) (oneWord 0#32) = .next t) ∧ sint ((oneWord 0#32).readReg 0) + sint16 1#16 ≠ (oneWord 0#32).pc :=
  ⟨by decide, by decide, ⟨_, rfl⟩, by decide, ⟨_, rfl⟩, by decide⟩

theorem witness_OnlySwChangesMemory : (∃ t, exec (.lw 0 1 0#16) (oneWord 0#32) = .next t) ∧
    ∀ a b o, Instr.lw 0 1 0#16 ≠ .sw a b o := ⟨⟨_, rfl⟩, fun _ _ _ h => by cases h⟩

theorem witness_RegisterAccessTable : (∃ t, exec (.add 1 2 3) (oneWord 0#32) = .next t) ∧ (4 : RegNum) ≠ 1 ∧
    (4 : RegNum) ≠ 2 ∧ (4 : RegNum) ≠ 3 ∧ (∃ t, exec (.lw 0 1 0#16) (oneWord 0#32) = .next t) ∧
    (∃ t, exec (.sw 0 1 0#16) (oneWord 0#32) = .next t) ∧ (∃ t, exec (.beq 0 1 0#16) (oneWord 0#32) = .next t) ∧
    (∃ t, exec (.jalr 0 1) (oneWord 0#32) = .next t) :=
  ⟨⟨_, rfl⟩, by decide, by decide, by decide, ⟨_, rfl⟩, ⟨_, rfl⟩, ⟨_, rfl⟩, ⟨_, rfl⟩⟩

theorem witness_DestinationIsNotRead : (∃ t, exec (.add 1 2 3) (oneWord 0#32) = .next t ∧ t.NotFaulted) ∧
    regWritten (.add 1 2 3) = some 3 ∧ (3 : RegNum) ∉ regsRead (.add 1 2 3) :=
  ⟨⟨_, rfl, fun _ h => by cases h⟩, rfl, by decide⟩

theorem witness_RegisterZeroIsWritten : 0 ≤ sint ((oneWord 0#32).readReg 1) + sint16 0#16 ∧
    sint ((oneWord 0#32).readReg 1) + sint16 0#16 < 65536 := by decide

theorem witness_ReadsComeBeforeTheWrite : ((1 : RegNum) = 1 ∨ (1 : RegNum) = 2) ∧ ((2 : RegNum) = 1 ∨ (2 : RegNum) = 2) ∧
    0 ≤ sint (((oneWord 0#32).writeReg 1 65535#32).readReg 1) + sint16 0#16 ∧
    sint (((oneWord 0#32).writeReg 1 65535#32).readReg 1) + sint16 0#16 < 65536 ∧
    0 ≤ sint ((oneWord 0#32).readReg 1) := by decide

theorem witness_AddWritesSumAndNothingElse : 0xFE0A0003#32 &&& 0x01FF0007#32 = encode (.add 1 2 3) := by decide

theorem witness_NorWritesNorAndNothingElse : 0x0049FFFA#32 &&& 0x01FF0007#32 = encode (.nor 1 1 2) ∧ 31 < 32 := by decide

/-- Taken to 0, taken to -1, not taken. -/
theorem witness_BeqBranchesOnEqualWords :
    (({ oneWord 0#32 with pc := 1 } : State).readReg 0 = ({ oneWord 0#32 with pc := 1 } : State).readReg 1 ∧
      0 ≤ ({ oneWord 0#32 with pc := 1 } : State).pc + sint16 0xFFFF#16) ∧
    ((oneWord 0#32).readReg 0 = (oneWord 0#32).readReg 1 ∧ (oneWord 0#32).pc + sint16 0xFFFF#16 < 0) ∧
    ((oneWord 0#32).writeReg 1 1#32).readReg 0 ≠ ((oneWord 0#32).writeReg 1 1#32).readReg 1 ∧
    0xFF010002#32 &&& 0x01FFFFFF#32 = encode (.beq 0 1 2#16) := by decide

theorem witness_JalrLinksAndJumpsToOldTarget : 0 ≤ sint ((oneWord 0#32).readReg 1) ∧
    sint (((oneWord 0#32).writeReg 1 0xFFFFFFFF#32).readReg 1) < 0 ∧
    0x0167FFFF#32 &&& 0x01FF0000#32 = encode (.jalr 4 7) := by decide

theorem witness_HaltStopsTheBlock : (oneWord 0xFFBFFFFF#32).runState = .running ∧ 0 ≤ (oneWord 0xFFBFFFFF#32).pc ∧
    (oneWord 0xFFBFFFFF#32).pc < ((oneWord 0xFFBFFFFF#32).loadedWordCount.val : Int) ∧
    (oneWord 0xFFBFFFFF#32).mem.readWord 0 &&& 0x01C00000#32 = 0x01800000#32 ∧
    0xFFBFFFFF#32 &&& 0x01C00000#32 = encode .halt := by decide

theorem witness_NoopOnlyAdvances : (oneWord 0xFFFFFFFF#32).runState = .running ∧ 0 ≤ (oneWord 0xFFFFFFFF#32).pc ∧
    (oneWord 0xFFFFFFFF#32).pc < ((oneWord 0xFFFFFFFF#32).loadedWordCount.val : Int) ∧
    (oneWord 0xFFFFFFFF#32).mem.readWord 0 &&& 0x01C00000#32 = 0x01C00000#32 ∧
    0xFFFFFFFF#32 &&& 0x01C00000#32 = encode .noop ∧
    (({ oneWord 0xFFFFFFFF#32 with instBudget := none } : State).instBudget = none) ∧
    (({ oneWord 0xFFFFFFFF#32 with instBudget := some 1 } : State).instBudget = some 1 ∧
      1 ≤ ({ oneWord 0xFFFFFFFF#32 with instBudget := some 1 } : State).instCount + 1) := by decide

theorem witness_LoadPlacesTheImage : [tok "-1", tok "+7"].map recordValue = [-1, 7].map some ∧
    [tok "-1", tok "+7"].length ≤ 65536 ∧ ([-1, 7] : List Int)[1]? = some 7 ∧ [tok "-1", tok "+7"].length ≤ 2 := by decide

/-- A malformed record and one out of range; 65537 good records; 65537 bad ones. -/
theorem witness_LoadErrorsAreReported :
    ((∃ r ∈ [tok "12a", tok "1"], recordValue r = none) ∧ [tok "12a", tok "1"].length ≤ 65536) ∧
    ((∀ r ∈ List.replicate 65537 (tok "1"), recordValue r ≠ none) ∧ 65536 < (List.replicate 65537 (tok "1")).length) ∧
    ((∃ r ∈ List.replicate 65537 (tok "-"), recordValue r = none) ∧ 65536 < (List.replicate 65537 (tok "-")).length) :=
  ⟨by decide,
   ⟨fun r h => by rw [List.eq_of_mem_replicate h]; decide, by rw [List.length_replicate]; decide⟩,
   ⟨tok "-", List.mem_replicate.mpr ⟨by decide, rfl⟩, by decide⟩, by rw [List.length_replicate]; decide⟩

theorem witness_LoadedBlockRunsFromZero : loadError [tok "0"] = none ∧ [tok "0"] ≠ [] := by decide

theorem witness_RegisterTokensAreDigitsBelowEight : parseRegister (tok "8") = .error .invalidRegister ∧
    (∀ r, parseRegister (tok "8") ≠ .ok r) ∧ parseRegister (tok "007") = .ok 7 := ⟨rfl, fun _ h => (by cases h), rfl⟩

theorem witness_OffsetPackingRoundTrip : ((-32768 : Int) ≤ -32768 ∧ (-32768 : Int) ≤ 32767) ∧ ((32767 : Int) ≤ 32767) ∧
    ((-32769 : Int) < -32768) ∧ ((32767 : Int) < 32768) := by decide

theorem witness_SymbolTableBindsLabelsToAddresses : (∃ t, buildSymbols 80 [] 0 labelSource = .ok t) ∧
    resolve [(tok "L", 2)] (tok "") = .error .undefinedLabel := ⟨⟨_, rfl⟩, rfl⟩

theorem witness_DuplicateLabelsAreRefused : (∀ l ∈ labelSource, l.length ≤ 10) ∧
    (∀ l ∈ [line "a" ["noop"], line "a" ["halt"]], l.length ≤ 10) := by decide

theorem witness_RTypeRecordsRefuseDestinationZero :
    parseRegister (tok "1") = .ok 1 ∧ parseRegister (tok "0") = .ok 0 ∧
    (SourceRecord.ofTokens [] [tok "add", tok "1", tok "1", tok "0"]).opcode = "add".toList ∧
    (SourceRecord.ofTokens [] [tok "nor", tok "1", tok "1", tok "1"]).opcode = "nor".toList := ⟨rfl, rfl, rfl, rfl⟩

/-- The range's ends, one beyond each, a label, a relative label, and no label. -/
theorem witness_ITypeAndJTypeRecordsGiveTheirWords :
    parseRegister (tok "1") = .ok 1 ∧ parseRegister (tok "2") = .ok 2 ∧
    (parseNumeral (tok "32767") = some 32767 ∧ parseNumeral (tok "-32768") = some (-32768)) ∧
    (parseNumeral (tok "32768") = some 32768 ∧ parseNumeral (tok "-32769") = some (-32769)) ∧
    (parseNumeral (tok "L") = none ∧ resolve [(tok "L", 40010)] (tok "L") = .ok 40010 ∧ (9 : Int) = (40010 : Nat) - (40000 : Nat) - 1) ∧
    (∀ k, resolve [] (tok "L") ≠ .ok k) ∧
    (SourceRecord.ofTokens [] [tok "halt", tok "extra", tok "9"]).opcode = "halt".toList ∧
    (SourceRecord.ofTokens [] [tok "noop"]).opcode = "noop".toList :=
  ⟨rfl, rfl, ⟨by decide, by decide⟩, ⟨by decide, by decide⟩, ⟨by decide, rfl, by decide⟩, fun _ h => (by cases h), rfl, rfl⟩

/-- A token that differs in case only; a bad first token with a bad offset after it; a bad second and a bad third. -/
theorem witness_RecordChecksGoLeftToRight :
    tok "ADD" ∉ ["add".toList, "nor".toList, "lw".toList, "sw".toList, "beq".toList, "jalr".toList, "halt".toList,
      "noop".toList, ".fill".toList] ∧
    (SourceRecord.ofTokens [] [tok "lw", tok "8", tok "1", tok "99999"]).opcode ∈
      ["lw".toList, "sw".toList, "beq".toList, "jalr".toList] ∧
    (SourceRecord.ofTokens [] [tok "jalr", tok "1"]).opcode ∈ ["lw".toList, "sw".toList, "beq".toList, "jalr".toList] ∧
    (SourceRecord.ofTokens [] [tok "nor", tok "1", tok "2", tok "-1"]).opcode ∈ ["add".toList, "nor".toList] ∧
    (∀ a, parseRegister (tok "8") ≠ .ok a) ∧ (∀ b, parseRegister (tok "") ≠ .ok b) ∧ (∀ d, parseRegister (tok "-1") ≠ .ok d) :=
  ⟨by decide, by decide, by decide, by decide, fun _ h => (by cases h), fun _ h => (by cases h), fun _ h => (by cases h)⟩

theorem witness_FillRecordsAreVerbatim : (SourceRecord.ofTokens [] [tok ".fill", tok "1"]).opcode = ".fill".toList ∧
    parseNumeral (tok "-2147483648") = some (-2 ^ 31) ∧ parseNumeral (tok "2147483648") = some (2 ^ 31) ∧
    parseNumeral (tok "L") = none ∧ resolve [(tok "L", 2)] (tok "L") = .ok 2 ∧ (∀ a, resolve [(tok "M", 2)] (tok "L") ≠ .ok a) :=
  ⟨rfl, by decide, by decide, by decide, rfl, fun _ h => (by cases h)⟩

theorem witness_AssemblerGivesOneWordPerRecord : assemble 80 labelSource = .ok [2#32, 16777216#32, 25165824#32] := rfl

/-- `.fill L`, `beq 0 0 L`, `lw 0 1 L` and `sw 0 1 L` before the record labelled `L`. -/
theorem witness_LabelReferencesReachTheirRecord :
    gives (assemble 80 [line "" [".fill", "L"], line "" ["lw", "0", "1", "L"], line "" ["sw", "0", "1", "L"],
      line "" ["beq", "0", "0", "L"], line "L" ["halt"]]) [4#32, 0x00810004#32, 0x00C10004#32, 0x01000000#32, 0x01800000#32] = true ∧
    tok "L" ≠ [] ∧ parseNumeral (tok "L") = none := by decide

theorem witness_AssembledInstructionsAreCanonical :
    encodeRecord [] 0 (SourceRecord.ofTokens [] [tok "add", tok "1", tok "2", tok "3"]) = .ok 655363#32 ∧
    (SourceRecord.ofTokens [] [tok "add", tok "1", tok "2", tok "3"]).opcode ≠ ".fill".toList := ⟨rfl, by decide⟩

theorem witness_AssembledOutputLoadsVerbatim : assemble 80 labelSource = .ok [2#32, 16777216#32, 25165824#32] ∧
    [2#32, 16777216#32, 25165824#32].length ≤ 65536 := ⟨rfl, by decide⟩

end Sys2Proof.Tests
end

/-! ### Decimal text (R178, R188, R242): what the assembler writes is read back as the number it was written from -/

namespace Sys2Proof.Machine

/-! The digit characters -/

theorem toNat_digitChar : ∀ d < 10, (Char.ofNat (48 + d)).toNat = 48 + d := by decide

theorem digitChar_ne_sign : ∀ d < 10, Char.ofNat (48 + d) ≠ '-' ∧ Char.ofNat (48 + d) ≠ '+' := by decide

/-- Reading one written digit is a step of Horner's scheme. -/
theorem digitsFrom_digitChar_cons {d : Nat} (hd : d < 10) (acc : Nat) (cs : Token) :
    digitsFrom acc (Char.ofNat (48 + d) :: cs) = digitsFrom (10 * acc + d) cs := by
  have hdigit : isDecimalDigit (Char.ofNat (48 + d)) = true := by
    simp only [isDecimalDigit, toNat_digitChar d hd, Bool.and_eq_true, decide_eq_true_eq]
    omega
  simp [digitsFrom, hdigit, toNat_digitChar d hd]

/-! The digits of a number: `renderDigits` -/

theorem renderDigits_succ_of_lt {n : Nat} (hn : n < 10) (fuel : Nat) (acc : Token) :
    renderDigits (fuel + 1) n acc = Char.ofNat (48 + n) :: acc := by
  simp [renderDigits, hn]

theorem renderDigits_succ_of_ge {n : Nat} (hn : 10 ≤ n) (fuel : Nat) (acc : Token) :
    renderDigits (fuel + 1) n acc = renderDigits fuel (n / 10) (Char.ofNat (48 + n % 10) :: acc) := by
  simp [renderDigits, Nat.not_lt.mpr hn]

/-- The digits of `n` are read as `n`, and the reading goes on with what stands after them. -/
theorem digitsFrom_renderDigits (fuel n : Nat) (acc : Token) (hfuel : n < fuel) :
    digitsFrom 0 (renderDigits fuel n acc) = digitsFrom n acc := by
  induction fuel generalizing n acc with
  | zero => omega
  | succ fuel ih =>
    by_cases hn : n < 10
    · rw [renderDigits_succ_of_lt hn, digitsFrom_digitChar_cons hn, Nat.mul_zero, Nat.zero_add]
    · have hdiv : n / 10 < fuel := by omega
      rw [renderDigits_succ_of_ge (by omega), ih _ _ hdiv, digitsFrom_digitChar_cons (Nat.mod_lt n (by decide)),
        Nat.div_add_mod]

/-- The text of a number is not empty, and its first character is a digit, so it is no sign. -/
theorem renderDigits_succ_eq_digitChar_cons (fuel n : Nat) (acc : Token) :
    ∃ d < 10, ∃ cs, renderDigits (fuel + 1) n acc = Char.ofNat (48 + d) :: cs := by
  induction fuel generalizing n acc with
  | zero =>
    by_cases hn : n < 10
    · exact ⟨n, hn, acc, renderDigits_succ_of_lt hn 0 acc⟩
    · exact ⟨n % 10, Nat.mod_lt n (by decide), acc, renderDigits_succ_of_ge (by omega) 0 acc⟩
  | succ fuel ih =>
    by_cases hn : n < 10
    · exact ⟨n, hn, acc, renderDigits_succ_of_lt hn _ acc⟩
    · rw [renderDigits_succ_of_ge (by omega)]
      exact ih _ _

theorem parseDigits_renderDigits (n : Nat) : parseDigits (renderDigits (n + 1) n []) = some n := by
  have hread := digitsFrom_renderDigits (n + 1) n [] (Nat.lt_succ_self n)
  obtain ⟨d, -, cs, hcs⟩ := renderDigits_succ_eq_digitChar_cons n n []
  rw [hcs] at hread ⊢
  exact hread

/-! Numerals: the sign, then the digits -/

theorem parseNumeral_minus_cons (cs : Token) :
    parseNumeral ('-' :: cs) = (parseDigits cs).map (fun n : Nat => -(n : Int)) := rfl

theorem parseNumeral_cons_of_not_sign {c : Char} (hminus : c ≠ '-') (hplus : c ≠ '+') (cs : Token) :
    parseNumeral (c :: cs) = (parseDigits (c :: cs)).map (fun n : Nat => (n : Int)) := by
  simp [parseNumeral, hminus, hplus]

theorem parseNumeral_renderDigits (n : Nat) : parseNumeral (renderDigits (n + 1) n []) = some (n : Int) := by
  have hdigits := parseDigits_renderDigits n
  obtain ⟨d, hd, cs, hcs⟩ := renderDigits_succ_eq_digitChar_cons n n []
  obtain ⟨hminus, hplus⟩ := digitChar_ne_sign d hd
  rw [hcs] at hdigits ⊢
  rw [parseNumeral_cons_of_not_sign hminus hplus, hdigits, Option.map_some]

/-- R188, R178: the string written for an integer is a numeral of that integer. -/
theorem parseNumeral_renderDecimal (v : Int) : parseNumeral (renderDecimal v) = some v := by
  by_cases hv : v < 0
  · have habs : -(v.natAbs : Int) = v := by omega
    rw [renderDecimal, if_pos hv, parseNumeral_minus_cons, parseDigits_renderDigits, Option.map_some, habs]
  · have habs : (v.natAbs : Int) = v := by omega
    rw [renderDecimal, if_neg hv, parseNumeral_renderDigits, habs]

/-! Words as integers (R8) and image records (R242) -/

theorem toNat_wordOf (v : Int) : ((wordOf v).toNat : Int) = v % 2 ^ 32 := by
  rw [wordOf, BitVec.toNat_ofInt]
  exact Int.toNat_of_nonneg (Int.emod_nonneg v (by decide))

theorem wordOf_sint (w : Word) : wordOf (sint w) = w := BitVec.ofInt_toInt

theorem fitsSigned32_iff (v : Int) : fitsSigned32 v = true ↔ -2 ^ 31 ≤ v ∧ v < 2 ^ 31 := by
  rw [fitsSigned32, Bool.and_eq_true, decide_eq_true_iff, decide_eq_true_iff]
  omega

theorem fitsSigned32_sint (w : Word) : fitsSigned32 (sint w) = true :=
  (fitsSigned32_iff (sint w)).mpr ⟨BitVec.le_toInt w, BitVec.toInt_lt⟩

theorem recordValue_of_parseNumeral {record : Token} {v : Int} (hparse : parseNumeral record = some v)
    (hfits : fitsSigned32 v = true) : recordValue record = some v := by
  simp [recordValue, hparse, hfits]

/-- R188, R242: an output line of the assembler is a good record of the value it was written from. -/
theorem recordValue_renderDecimal_sint (w : Word) : recordValue (renderDecimal (sint w)) = some (sint w) :=
  recordValue_of_parseNumeral (parseNumeral_renderDecimal (sint w)) (fitsSigned32_sint w)

/-- Settles O47: the digits that `renderDigits` writes are read back by Horner's scheme, and every `sint w` fits 32 bits. -/
theorem decimalTextRoundTrip : Obligations.DecimalTextRoundTrip :=
  ⟨toNat_wordOf, parseNumeral_renderDecimal, fun w => ⟨recordValue_renderDecimal_sint w, wordOf_sint w⟩⟩

end Sys2Proof.Machine

/-! ### State, registers and the invariant (spec/10_state.md): the equations its proofs rewrite with -/

namespace Sys2Proof.Machine

/-! Writes to registers: two to one register, two to different ones, and a write before another operation -/

theorem writeReg_writeReg_same (s : State) (r : RegNum) (v w : Word) :
    (s.writeReg r v).writeReg r w = s.writeReg r w := by
  simp [State.writeReg]

theorem writeReg_comm (s : State) {r d : RegNum} (h : r ≠ d) (v w : Word) :
    (s.writeReg r v).writeReg d w = (s.writeReg d w).writeReg r v := by
  have hval : r.val ≠ d.val := Fin.val_ne_of_ne h
  simp [State.writeReg, Vector.set_comm _ _ hval]

theorem jumpTo_writeReg (p : Int) (s : State) (r : RegNum) (v : Word) :
    jumpTo p (s.writeReg r v) = (jumpTo p s).writeReg r v := by
  unfold jumpTo
  split <;> rfl

theorem effectiveAddress_writeReg_ne (s : State) {r a : RegNum} (h : r ≠ a) (v : Word) (o : Offset) :
    effectiveAddress (s.writeReg r v) a o = effectiveAddress s a o := by
  rw [effectiveAddress, readReg_writeReg_ne _ _ h.symm, effectiveAddress]

/-! The bodies as equations: `lw` and `sw` by the answer of the address check -/

theorem checkAddress_inRange {ea : Int} (h0 : 0 ≤ ea) (h1 : ea < 65536) : checkAddress ea = .ok ea.toNat := by
  rcases checkAddress_cases ea with ⟨hneg, -⟩ | ⟨hbig, -⟩ | ⟨-, -, hok⟩
  · omega
  · omega
  · exact hok

section
variable {s : State} {a : RegNum} {o : Offset}

theorem exec_lw_error {kind : FaultKind} (h : checkAddress (effectiveAddress s a o) = .error kind) (b : RegNum) :
    exec (.lw a b o) s = .next (raise kind s) := by
  simp [exec, execLw, h]

theorem exec_lw_ok {n : Nat} (h : checkAddress (effectiveAddress s a o) = .ok n) (b : RegNum) :
    exec (.lw a b o) s = .next (s.writeReg b (s.memRead n)) := by
  simp [exec, execLw, h]

theorem exec_sw_error {kind : FaultKind} (h : checkAddress (effectiveAddress s a o) = .error kind) (b : RegNum) :
    exec (.sw a b o) s = .next (raise kind s) := by
  simp [exec, execSw, h]

theorem exec_sw_ok {n : Nat} (h : checkAddress (effectiveAddress s a o) = .ok n) (b : RegNum) :
    exec (.sw a b o) s = .next (s.memWrite n (s.readReg b)) := by
  simp [exec, execSw, h]

end

section
variable (s : State) (a b d : RegNum)

theorem exec_add : exec (.add a b d) s = .next (s.writeReg d (addWords (s.readReg a) (s.readReg b))) := rfl

theorem exec_nor : exec (.nor a b d) s = .next (s.writeReg d (norWords (s.readReg a) (s.readReg b))) := rfl

theorem exec_beq (o : Offset) :
    exec (.beq a b o) s = .next (if s.readReg a = s.readReg b then jumpTo (s.pc + sint16 o) s else s) := by
  simp [exec, execBeq, regsEqual]

theorem exec_jalr : exec (.jalr a b) s = .next (jumpTo (sint (s.readReg a)) (s.writeReg b (wordOf s.pc))) := rfl

theorem exec_halt : exec .halt s = .next { s with runState := .halted } := rfl

theorem exec_noop : exec .noop s = .next s := rfl

end

theorem sint_le (w : Word) : sint w ≤ 2147483647 := by
  have h : sint w < 2 ^ 31 := BitVec.toInt_lt
  omega

theorem sint16_le (o : Offset) : sint16 o ≤ 32767 := by
  have h : sint16 o < 2 ^ 15 := BitVec.toInt_lt
  omega

end Sys2Proof.Machine

/-! ### What a body can do: one write of data, then one move of control -/

namespace Sys2Proof.Machine

/-- R22: the data a body of `i` can write: nothing, the register of its row, or, for `sw`, one Word of memory. -/
inductive DataEffect (i : Instr) (s : State) : State → Prop where
  | nothing : DataEffect i s s
  | register (r : RegNum) (v : Word) (row : regWritten i = some r) : DataEffect i s (s.writeReg r v)
  | memory (n : Nat) (v : Word) (store : ∃ a b o, i = .sw a b o) : DataEffect i s (s.memWrite n v)

/-- How a body can end once its data is written: it goes on at `pc`, raises a fault, halts, or moves `pc` to a target
that is not negative and is a branch's (16-bit offset) or a register's (32-bit signed value). -/
inductive ControlEffect (u : State) : State → Prop where
  | goOn : ControlEffect u u
  | fault (kind : FaultKind) : ControlEffect u (raise kind u)
  | halt : ControlEffect u { u with runState := .halted }
  | jump (p : Int) (nonneg : 0 ≤ p) (le : p ≤ max (u.pc + 32767) 2147483647) : ControlEffect u { u with pc := p }

theorem controlEffect_jumpTo {p : Int} {u : State} (hle : p ≤ max (u.pc + 32767) 2147483647) :
    ControlEffect u (jumpTo p u) := by
  rcases jumpTo_cases p u with ⟨-, e⟩ | ⟨hp, e⟩
  · exact e ▸ .fault _
  · exact e ▸ .jump p hp hle

/-- Every body is a write of data followed by a move of control. -/
theorem exec_effects {i : Instr} {s t : State} (h : exec i s = .next t) :
    ∃ u, DataEffect i s u ∧ ControlEffect u t := by
  have hc := exec_cases i s
  cases i with
  | add a b d => cases hc.symm.trans h; exact ⟨_, .register d _ rfl, .goOn⟩
  | nor a b d => cases hc.symm.trans h; exact ⟨_, .register d _ rfl, .goOn⟩
  | lw a b o =>
    rcases hc with ⟨-, hc⟩ | ⟨-, hc⟩ | ⟨-, -, hc⟩ <;> cases hc.symm.trans h
    · exact ⟨s, .nothing, .fault _⟩
    · exact ⟨s, .nothing, .fault _⟩
    · exact ⟨_, .register b _ rfl, .goOn⟩
  | sw a b o =>
    rcases hc with ⟨-, hc⟩ | ⟨-, hc⟩ | ⟨-, -, hc⟩ <;> cases hc.symm.trans h
    · exact ⟨s, .nothing, .fault _⟩
    · exact ⟨s, .nothing, .fault _⟩
    · exact ⟨_, .memory _ _ ⟨a, b, o, rfl⟩, .goOn⟩
  | beq a b o =>
    rcases hc with ⟨-, hc⟩ | ⟨-, hc⟩ <;> cases hc.symm.trans h
    · exact ⟨s, .nothing, .goOn⟩
    · have ho := sint16_le o
      exact ⟨s, .nothing, controlEffect_jumpTo (by omega)⟩
  | jalr a b =>
    cases hc.symm.trans h
    exact ⟨_, .register b _ rfl, controlEffect_jumpTo (le_max_of_le_right (sint_le _))⟩
  | halt => cases hc.symm.trans h; exact ⟨s, .nothing, .halt⟩
  | noop => cases hc.symm.trans h; exact ⟨s, .nothing, .goOn⟩

theorem ControlEffect.keeps_data {u t : State} (h : ControlEffect u t) :
    t.mem = u.mem ∧ ∀ r, t.readReg r = u.readReg r := by
  cases h <;> exact ⟨rfl, fun _ => rfl⟩

theorem DataEffect.keeps_pc {i : Instr} {s u : State} (h : DataEffect i s u) : u.pc = s.pc := by
  cases h <;> rfl

theorem exec_pc {i : Instr} {s t : State} (h : exec i s = .next t) :
    t.pc = s.pc ∨ (0 ≤ t.pc ∧ t.pc ≤ max (s.pc + 32767) 2147483647) := by
  obtain ⟨u, hdata, hcontrol⟩ := exec_effects h
  rw [← hdata.keeps_pc]
  cases hcontrol with
  | goOn => exact .inl rfl
  | fault kind => exact .inl rfl
  | halt => exact .inl rfl
  | jump p hnonneg hle => exact .inr ⟨hnonneg, hle⟩

theorem exec_keeps_mem {i : Instr} {s t : State} (h : exec i s = .next t) (hi : ∀ a b o, i ≠ .sw a b o) :
    t.mem = s.mem := by
  obtain ⟨u, hdata, hcontrol⟩ := exec_effects h
  rw [hcontrol.keeps_data.1]
  cases hdata with
  | nothing => rfl
  | register r v row => rfl
  | memory n v store =>
    obtain ⟨a, b, o, rfl⟩ := store
    exact absurd rfl (hi a b o)

theorem exec_keeps_readReg {i : Instr} {s t : State} {r : RegNum} (h : exec i s = .next t)
    (hr : regWritten i ≠ some r) : t.readReg r = s.readReg r := by
  obtain ⟨u, hdata, hcontrol⟩ := exec_effects h
  rw [hcontrol.keeps_data.2]
  cases hdata with
  | nothing => rfl
  | register d v row =>
    have hne : r ≠ d := by rintro rfl; exact hr row
    exact readReg_writeReg_ne _ _ hne
  | memory n v store => rfl

/-- Settles O30: the one data effect on memory is that of `sw`. -/
theorem onlySwChangesMemory : Obligations.OnlySwChangesMemory :=
  fun _ _ _ h hi k => congrArg (Memory.readCell · k) (exec_keeps_mem h hi)

/-- Settles O22: the run states a body can leave are those of `exec_runState`, and `halt` has one outcome. -/
theorem onlyHaltHalts : Obligations.OnlyHaltHalts := by
  intro i s t hrun h
  constructor
  · intro ht
    rcases exec_runState h with ⟨hsame, -⟩ | ⟨hi, -⟩ | ⟨v, hfault⟩ | ⟨v, hfault⟩
    · simp [hsame, hrun] at ht
    · exact hi
    · simp [hfault] at ht
    · simp [hfault] at ht
  · rintro rfl
    cases (exec_halt s).symm.trans h
    rfl

end Sys2Proof.Machine

/-! ### The invariant: every step keeps it, and reset has it -/

namespace Sys2Proof.Machine

/-- R24, R26: the fetch bound limits `pc` before a body, so that no advance and no branch leaves the range; the largest
target is a register's. -/
theorem step_pcInRange {s t : State} (h : step s = .next t) : t.PcInRange := by
  intro ht
  obtain ⟨-, ⟨-, rfl⟩ | ⟨hf, u, hu, rfl⟩⟩ := step_cases h
  · simp at ht
  · obtain ⟨-, hpc, -⟩ := finish_keeps u
    have hbody := exec_pc hu
    have hloaded := s.loadedWordCount.isLt
    rw [advance_pc] at hbody
    omega

theorem step_keeps_wf {s t : State} (h : step s = .next t) (hw : s.mem.wf = true) : t.mem.wf = true := by
  obtain ⟨-, ⟨-, rfl⟩ | ⟨-, u, hu, rfl⟩⟩ := step_cases h
  · exact hw
  · rw [(finish_keeps u).1]
    exact exec_keeps_wf hu hw

theorem raise_withinBudget {s : State} (h : s.WithinBudget) (kind : FaultKind) : (raise kind s).WithinBudget := by
  intro b hb hb1
  exact ⟨(h b hb hb1).1, by simp⟩

/-- R107: an instruction that begins below the ceiling ends at most at it, and at it the fuse has fired. -/
theorem finish_withinBudget {u : State} (h : ∀ b, u.instBudget = some b → 1 ≤ b → u.instCount < b) :
    (finish u).WithinBudget := by
  intro b hb hb1
  obtain ⟨-, -, -, hbudget, -⟩ := finish_keeps u
  have hlt : u.instCount < b := h b (hbudget ▸ hb) hb1
  rcases finish_cases u with ⟨kind, hrun, e⟩ | ⟨hrun, e⟩ | ⟨-, hnot, e⟩ | ⟨-, -, e⟩ <;> rw [e] at hb ⊢
  · exact ⟨hlt.le, fun ht => by simp [hrun] at ht⟩
  · exact ⟨hlt, fun ht => by simp [hrun] at ht⟩
  · have hcount : ¬ b ≤ (count u).instCount := fun hle => by
      simp [(budgetReached_iff (count u)).mpr ⟨b, hb, hle⟩] at hnot
    exact ⟨hlt, fun _ => not_le.mp hcount⟩
  · exact ⟨hlt, fun ht => by simp at ht⟩

theorem step_keeps_withinBudget {s t : State} (h : step s = .next t) (hs : s.WithinBudget) : t.WithinBudget := by
  obtain ⟨hrun, ⟨-, rfl⟩ | ⟨-, u, hu, rfl⟩⟩ := step_cases h
  · exact raise_withinBudget hs _
  · obtain ⟨hcount, -, hbudget⟩ := exec_keeps_counters hu
    refine finish_withinBudget fun b hb hb1 => ?_
    rw [hcount]
    exact (hs b (hbudget ▸ hb) hb1).2 hrun

/-- Settles O15: each of the three parts of the invariant is kept by itself, the range of `pc` from any state. -/
theorem stepKeepsInvariant : Obligations.StepKeepsInvariant := fun _ _ hs h =>
  ⟨step_keeps_wf h hs.memory, step_pcInRange h, step_keeps_withinBudget h hs.budget⟩

/-- Settles O14, by `step_pcInRange`. -/
theorem runningPcStaysInRange : Obligations.RunningPcStaysInRange := by
  intro s t h ht
  obtain ⟨hnonneg, hle⟩ := step_pcInRange h ht
  exact ⟨hnonneg, by omega⟩

/-- Settles O18: neither a body nor what follows it touches the loaded-word count or the ceiling. -/
theorem stepKeepsLoadedWordCount : Obligations.StepKeepsLoadedWordCount := by
  intro s t h
  obtain ⟨-, ⟨-, rfl⟩ | ⟨-, u, hu, rfl⟩⟩ := step_cases h
  · exact ⟨rfl, rfl⟩
  · obtain ⟨-, hloaded, hbudget⟩ := exec_keeps_counters hu
    obtain ⟨-, -, hloaded', hbudget', -⟩ := finish_keeps u
    exact ⟨hloaded'.trans hloaded, hbudget'.trans hbudget⟩

/-- Settles O16: the counter starts at 0, below every ceiling of at least 1. -/
theorem resetMeetsInvariant : Obligations.ResetMeetsInvariant where
  memory := wf_nil
  pc _ := by decide
  budget _ _ hb := ⟨Nat.zero_le _, fun _ => hb⟩

@[simp] theorem readWord_nil (a : Nat) : Memory.readWord [] a = 0#32 := by
  simp only [Memory.readWord, readCell_nil]
  decide

/-- Settles O43: every field of `State.reset` is given by its definition. -/
theorem resetStateIsZero : Obligations.ResetStateIsZero := by
  refine ⟨fun r => ?_, rfl, rfl, rfl, rfl, readWord_nil⟩
  simp [State.readReg, State.reset]

end Sys2Proof.Machine

/-! ### The observation (R42) shows the whole state (R36) -/

namespace Sys2Proof.Machine

theorem getElem?_wordsFrom (m : Memory) {a n i : Nat} (h : i < n) :
    (m.wordsFrom a n)[i]? = some (m.readWord (a + i)) := by
  have hlen : i < (m.wordsFrom a n).length := by rwa [length_wordsFrom]
  rw [List.getElem?_eq_getElem hlen, getElem_wordsFrom]

theorem readWord_observe (s : State) {a : Nat} (h : a < Config.memWords) :
    s.observe.memory[a]? = some (s.mem.readWord a) := by
  have hword := getElem?_wordsFrom s.mem (a := 0) h
  rwa [Nat.zero_add] at hword

/-- A cell is one of the four bytes of the Word at a quarter of its number. -/
theorem readCell_congr_of_readWord {m n : Memory} {k : Nat} (h : m.readWord (k / 4) = n.readWord (k / 4)) :
    m.readCell k = n.readCell k := by
  obtain ⟨h0, h1, h2, h3⟩ := wordOfBytes_inj h
  have hk : k = 4 * (k / 4) ∨ k = 4 * (k / 4) + 1 ∨ k = 4 * (k / 4) + 2 ∨ k = 4 * (k / 4) + 3 := by omega
  rcases hk with hk | hk | hk | hk <;> rw [hk] <;> assumption

/-- Canonical memories with the same Word at each address are the same list. -/
theorem memory_ext_words {m n : Memory} (hm : m.wf = true) (hn : n.wf = true)
    (h : ∀ a < Config.memWords, m.readWord a = n.readWord a) : m = n := by
  refine memory_ext_cells hm hn fun k => ?_
  by_cases hk : k < Config.memCells
  · exact readCell_congr_of_readWord (h (k / 4) (Nat.div_lt_of_lt_mul hk))
  · rw [readCell_beyond hm (not_lt.mp hk), readCell_beyond hn (not_lt.mp hk)]

/-- Settles O25: the observed Words fix every cell of a canonical memory, and the other fields are observed as they are. -/
theorem observationDeterminesState : Obligations.ObservationDeterminesState := by
  intro s t hs ht hobs hbudget
  have hmem : s.mem = t.mem := memory_ext_words hs ht fun a ha => by
    rw [← Option.some_inj, ← readWord_observe s ha, ← readWord_observe t ha, hobs]
  have hregs : s.regs = t.regs := congrArg Observation.regs hobs
  exact State.ext_fields (fun r => congrArg (·[r]) hregs) (congrArg Observation.pc hobs) hmem
    (Fin.ext (congrArg Observation.loadedWordCount hobs)) (congrArg Observation.instCount hobs)
    (congrArg Observation.runState hobs) hbudget

/-- Settles O26: the scalar fields are copied, and the memory is listed Word by Word. -/
theorem observeReturnsEverything : Obligations.ObserveReturnsEverything := fun s =>
  ⟨rfl, rfl, fun _ => rfl, rfl, rfl, length_wordsFrom s.mem 0 Config.memWords, fun _ ha => readWord_observe s ha⟩

end Sys2Proof.Machine

/-! ### The register access table (R22) and register 0 (R21) -/

namespace Sys2Proof.Machine

/-- R22: a write beforehand to a register the row of `i` does not name changes the outcome by that register only. -/
theorem exec_writeReg_of_not_named {i : Instr} {s t : State} {r : RegNum} (h : exec i s = .next t)
    (hread : r ∉ regsRead i) (hwritten : regWritten i ≠ some r) (v : Word) :
    exec i (s.writeReg r v) = .next (t.writeReg r v) := by
  cases i with
  | add a b d =>
    obtain ⟨ha, hb⟩ : a ≠ r ∧ b ≠ r := by simpa [regsRead, eq_comm] using hread
    have hd : r ≠ d := by rintro rfl; exact hwritten rfl
    cases (exec_add s a b d).symm.trans h
    rw [exec_add, readReg_writeReg_ne _ _ ha, readReg_writeReg_ne _ _ hb, writeReg_comm _ hd]
  | nor a b d =>
    obtain ⟨ha, hb⟩ : a ≠ r ∧ b ≠ r := by simpa [regsRead, eq_comm] using hread
    have hd : r ≠ d := by rintro rfl; exact hwritten rfl
    cases (exec_nor s a b d).symm.trans h
    rw [exec_nor, readReg_writeReg_ne _ _ ha, readReg_writeReg_ne _ _ hb, writeReg_comm _ hd]
  | lw a b o =>
    have ha : r ≠ a := by simpa [regsRead] using hread
    have hb : r ≠ b := by rintro rfl; exact hwritten rfl
    have hea := effectiveAddress_writeReg_ne s ha v o
    cases hc : checkAddress (effectiveAddress s a o) with
    | error kind =>
      cases (exec_lw_error hc b).symm.trans h
      exact exec_lw_error (hea ▸ hc) b
    | ok n =>
      cases (exec_lw_ok hc b).symm.trans h
      rw [exec_lw_ok (hea ▸ hc), writeReg_comm _ hb, writeReg_memRead]
  | sw a b o =>
    obtain ⟨ha, hb⟩ : r ≠ a ∧ b ≠ r := by simpa [regsRead, eq_comm] using hread
    have hea := effectiveAddress_writeReg_ne s ha v o
    cases hc : checkAddress (effectiveAddress s a o) with
    | error kind =>
      cases (exec_sw_error hc b).symm.trans h
      exact exec_sw_error (hea ▸ hc) b
    | ok n =>
      cases (exec_sw_ok hc b).symm.trans h
      rw [exec_sw_ok (hea ▸ hc), readReg_writeReg_ne _ _ hb]
      rfl
  | beq a b o =>
    obtain ⟨ha, hb⟩ : a ≠ r ∧ b ≠ r := by simpa [regsRead, eq_comm] using hread
    cases (exec_beq s a b o).symm.trans h
    rw [exec_beq, readReg_writeReg_ne _ _ ha, readReg_writeReg_ne _ _ hb, writeReg_pc, jumpTo_writeReg,
      apply_ite (State.writeReg · r v)]
  | jalr a b =>
    have ha : a ≠ r := by simpa [regsRead, eq_comm] using hread
    have hb : r ≠ b := by rintro rfl; exact hwritten rfl
    cases (exec_jalr s a b).symm.trans h
    rw [exec_jalr, readReg_writeReg_ne _ _ ha, writeReg_pc, writeReg_comm _ hb, jumpTo_writeReg]
  | halt => cases (exec_halt s).symm.trans h; rfl
  | noop => cases (exec_noop s).symm.trans h; rfl

/-- Settles O31: the rows are those of `regWritten` and `regsRead`. -/
theorem registerAccessTable : Obligations.RegisterAccessTable := by
  constructor
  · intro i s t r h hrow
    have hwritten : regWritten i ≠ some r := by
      intro hw
      cases i <;> cases hw <;> exact hrow rfl
    exact exec_keeps_readReg h hwritten
  · intro i s t r v h hrow
    obtain ⟨hread, hwritten⟩ : r ∉ regsRead i ∧ regWritten i ≠ some r := by
      cases i <;> simp_all [regsRead, regWritten, eq_comm]
    exact exec_writeReg_of_not_named h hread hwritten v

/-- Settles O32: the result of a body that completes overwrites the destination. -/
theorem destinationIsNotRead : Obligations.DestinationIsNotRead := by
  intro i s t r v h hok hwritten hread
  cases i with
  | add a b d =>
    cases hwritten
    obtain ⟨ha, hb⟩ : a ≠ r ∧ b ≠ r := by simpa [regsRead, eq_comm] using hread
    rw [← h, exec_add, exec_add, readReg_writeReg_ne _ _ ha, readReg_writeReg_ne _ _ hb, writeReg_writeReg_same]
  | nor a b d =>
    cases hwritten
    obtain ⟨ha, hb⟩ : a ≠ r ∧ b ≠ r := by simpa [regsRead, eq_comm] using hread
    rw [← h, exec_nor, exec_nor, readReg_writeReg_ne _ _ ha, readReg_writeReg_ne _ _ hb, writeReg_writeReg_same]
  | lw a b o =>
    cases hwritten
    have ha : r ≠ a := by simpa [regsRead] using hread
    have hea := effectiveAddress_writeReg_ne s ha v o
    cases hc : checkAddress (effectiveAddress s a o) with
    | error kind =>
      cases (exec_lw_error hc r).symm.trans h
      exact absurd rfl (hok kind)
    | ok n => rw [← h, exec_lw_ok (hea ▸ hc), exec_lw_ok hc, writeReg_writeReg_same, writeReg_memRead]
  | sw a b o => cases hwritten
  | beq a b o => cases hwritten
  | jalr a b =>
    cases hwritten
    have ha : a ≠ r := by simpa [regsRead, eq_comm] using hread
    rw [← h, exec_jalr, exec_jalr, readReg_writeReg_ne _ _ ha, writeReg_pc, writeReg_writeReg_same]
  | halt => cases hwritten
  | noop => cases hwritten

/-- Settles O33: no body looks at the number of its destination, so that the write rule of a register serves 0 too. -/
theorem registerZeroIsWritten : Obligations.RegisterZeroIsWritten := by
  refine ⟨fun a b s => ⟨_, exec_add s a b 0, ?_⟩, fun a b s => ⟨_, exec_nor s a b 0, ?_⟩,
    fun a o s h0 h1 => ⟨_, exec_lw_ok (checkAddress_inRange h0 h1) 0, ?_⟩, fun a s => ⟨_, exec_jalr s a 0, ?_⟩⟩
  · exact readReg_writeReg_same s 0 _
  · exact readReg_writeReg_same s 0 _
  · exact readReg_writeReg_same s 0 _
  · rw [readReg_jumpTo, readReg_writeReg_same]

end Sys2Proof.Machine

/-! ### Memory by Words (R57), and what `lw`, `sw` and the fetch see of it (R56, R60, R63) -/

namespace Sys2Proof.Machine

/-! One Word of memory: read after a write to it, and after a write to another -/

theorem readWord_writeWord_same {m : Memory} (h : m.wf = true) {a : Nat} (ha : a < Config.memWords) (v : Word) :
    (m.writeWord a v).readWord a = v := by
  simp [Memory.readWord, readCell_writeWord h ha, wordOfBytes_byteOfWord]

/-- Words at different addresses share no cell. -/
theorem readWord_writeWord_ne {m : Memory} (h : m.wf = true) {a b : Nat} (ha : a < Config.memWords) (hb : b ≠ a)
    (v : Word) : (m.writeWord a v).readWord b = m.readWord b := by
  have hcell : ∀ j < 4, (m.writeWord a v).readCell (4 * b + j) = m.readCell (4 * b + j) := fun j hj => by
    rw [readCell_writeWord h ha, if_neg (by omega), if_neg (by omega), if_neg (by omega), if_neg (by omega)]
  simp only [Memory.readWord, hcell 1 (by decide), hcell 2 (by decide), hcell 3 (by decide)]
  rw [← Nat.add_zero (4 * b), hcell 0 (by decide)]

theorem readWord_writeWord {m : Memory} (h : m.wf = true) {a : Nat} (ha : a < Config.memWords) (b : Nat) (v : Word) :
    (m.writeWord a v).readWord b = if b = a then v else m.readWord b := by
  by_cases hb : b = a
  · rw [if_pos hb, hb, readWord_writeWord_same h ha]
  · rw [if_neg hb, readWord_writeWord_ne h ha hb]

/-- Settles O24: the Words are disjoint groups of four cells, and reset lists no cell. -/
theorem memReadAfterMemWrite : Obligations.MemReadAfterMemWrite :=
  ⟨fun _ _ b v h ha _ => readWord_writeWord h ha b v, readWord_nil⟩

theorem memRead_memWrite {s : State} (h : s.mem.wf = true) {a : Nat} (ha : a < Config.memWords) (b : Nat) (v : Word) :
    (s.memWrite a v).memRead b = if b = a then v else s.memRead b :=
  readWord_writeWord h ha b v

/-! The address check outside memory, and the data access it stops -/

theorem checkAddress_negative {ea : Int} (h : ea < 0) : checkAddress ea = .error (.negativeAddress ea) := by
  rcases checkAddress_cases ea with ⟨-, herr⟩ | ⟨hbig, -⟩ | ⟨hnonneg, -, -⟩
  · exact herr
  · omega
  · omega

theorem checkAddress_beyond {ea : Int} (h : 65536 ≤ ea) : checkAddress ea = .error (.memoryOutOfRange ea) := by
  rcases checkAddress_cases ea with ⟨hneg, -⟩ | ⟨-, herr⟩ | ⟨-, hlt, -⟩
  · omega
  · exact herr
  · omega

/-- R56: a data access whose address the check refuses does nothing but raise the check's fault. -/
theorem exec_access_error {i : Instr} {a b : RegNum} {o : Offset} {s : State} {kind : FaultKind}
    (hi : i = .lw a b o ∨ i = .sw a b o) (h : checkAddress (effectiveAddress s a o) = .error kind) :
    exec i s = .next (raise kind s) := by
  rcases hi with rfl | rfl
  · exact exec_lw_error h b
  · exact exec_sw_error h b

/-- Settles O27: on either side of memory the address check refuses, and the fault it names is all that happens. -/
theorem outOfRangeAccessWritesNothing : Obligations.OutOfRangeAccessWritesNothing := fun _ _ _ _ _ hi =>
  ⟨fun hneg => exec_access_error hi (checkAddress_negative hneg),
    fun hbig => exec_access_error hi (checkAddress_beyond hbig)⟩

/-! What a `sw` can do, and what the accesses after it see -/

/-- R135: a `sw` stores one Word at an address in memory, or raises a fault for an address outside it. -/
theorem exec_sw_cases {a b : RegNum} {o : Offset} {s t : State} (h : exec (.sw a b o) s = .next t) :
    (∃ n : Nat, n < Config.memWords ∧ effectiveAddress s a o = n ∧ t = s.memWrite n (s.readReg b)) ∨
    ∃ kind, (effectiveAddress s a o < 0 ∨ 65536 ≤ effectiveAddress s a o) ∧ t = raise kind s := by
  rcases checkAddress_cases (effectiveAddress s a o) with ⟨hneg, herr⟩ | ⟨hbig, herr⟩ | ⟨hnonneg, hlt, hok⟩
  · rw [exec_sw_error herr] at h
    cases h
    exact .inr ⟨_, .inl hneg, rfl⟩
  · rw [exec_sw_error herr] at h
    cases h
    exact .inr ⟨_, .inr hbig, rfl⟩
  · rw [exec_sw_ok hok] at h
    cases h
    exact .inl ⟨_, by simp only [Config.memWords]; omega, by omega, rfl⟩

/-- Settles O28: both address checks answer the same address, where the load reads the Word just written. -/
theorem loadAfterStoreReturnsStoredWord : Obligations.LoadAfterStoreReturnsStoredWord := by
  intro a b c d o p s t hwf h0 h1 hsw hsame
  have hnonneg : 0 ≤ effectiveAddress s a o := h0
  have hlt : effectiveAddress s a o < 65536 := h1
  have hea : effectiveAddress t c p = effectiveAddress s a o := hsame
  rcases exec_sw_cases hsw with ⟨n, hn, hstore, rfl⟩ | ⟨kind, hout, rfl⟩
  · have hcheck : checkAddress (effectiveAddress (s.memWrite n (s.readReg b)) c p) = .ok n := by
      rw [hea, checkAddress_inRange hnonneg hlt, hstore, Int.toNat_natCast]
    refine ⟨_, exec_lw_ok hcheck d, ?_⟩
    rw [readReg_writeReg_same, memRead_memWrite hwf hn, if_pos rfl]
  · omega

/-- R101: a store leaves the fetch range as it was, so that the next fetch reads the new memory. -/
theorem fetch_memWrite {s : State} (h : s.InFetchRange) (n : Nat) (v : Word) :
    (s.memWrite n v).fetch = some ((s.memWrite n v).memRead s.pc.toNat) :=
  fetch_inRange (s := s.memWrite n v) h

theorem fetch_raise (kind : FaultKind) (s : State) : (raise kind s).fetch = s.fetch := rfl

/-- Settles O29: the fetch reads the data memory itself, at `pc`, inside a range that no `sw` moves. -/
theorem fetchSeesStoreAtOnce : Obligations.FetchSeesStoreAtOnce := by
  intro a b o s t hwf hrange hsw
  have ⟨hpc0, hpc1⟩ := hrange
  change (effectiveAddress s a o = s.pc → _) ∧ (effectiveAddress s a o ≠ s.pc → _) ∧ _
  rcases exec_sw_cases hsw with ⟨n, hn, hstore, rfl⟩ | ⟨kind, hout, rfl⟩
  · rw [hstore, fetch_memWrite hrange, fetch_inRange hrange, memRead_memWrite hwf hn]
    refine ⟨fun heq => ?_, fun hne => ?_, rfl⟩
    · rw [if_pos (by omega)]
    · rw [if_neg (by omega)]
  · exact ⟨fun heq => by omega, fun _ => fetch_raise kind s, rfl⟩

end Sys2Proof.Machine

/-! ### Encoding and decoding (spec/30_encoding.md): the fields of a Word, and the bits the decoder reads -/

namespace Sys2Proof

/-! The fields as an instruction (R80), and the two directions between fields and Words -/

/-- R80: the instruction of the opcode map, from the fields of R74. `decode` is this function of a Word's fields. -/
def Instr.ofFields (op : Fin 8) (regA regB destReg : RegNum) (offset : Offset) : Instr :=
  match op with
  | 0 => .add regA regB destReg
  | 1 => .nor regA regB destReg
  | 2 => .lw regA regB offset
  | 3 => .sw regA regB offset
  | 4 => .beq regA regB offset
  | 5 => .jalr regA regB
  | 6 => .halt
  | 7 => .noop

theorem decode_eq_ofFields (w : Word) :
    decode w = .ofFields (opcodeField w) (regAField w) (regBField w) (destRegField w) (offsetField w) := rfl

theorem decode_packFields (op : Fin 8) (a b : RegNum) {low : Word} (h : low.toNat < 65536) :
    decode (packFields op a b low) = .ofFields op a b (destRegField low) (offsetField low) := by
  obtain ⟨hop, ha, hb, hd, ho⟩ := fields_packFields op a b h
  have hd' : destRegField (packFields op a b low) = destRegField low :=
    Fin.ext (hd.trans (destRegField_val low).symm)
  have ho' : offsetField (packFields op a b low) = offsetField low :=
    BitVec.eq_of_toNat_eq (by rw [ho, offsetField_toNat, Nat.mod_eq_of_lt h])
  rw [decode_eq_ofFields, hop, ha, hb, hd', ho']

/-! The low part of a canonical Word: a destination register, an offset, or 0 -/

theorem toNat_ofNat_reg (d : RegNum) : (BitVec.ofNat 32 d.val).toNat = d.val := by
  rw [BitVec.toNat_ofNat]
  omega

theorem toNat_setWidth_offset (o : Offset) : (o.setWidth 32).toNat = o.toNat := by
  rw [BitVec.toNat_setWidth]
  omega

theorem toNat_ofNat_reg_lt (d : RegNum) : (BitVec.ofNat 32 d.val).toNat < 65536 := by
  rw [toNat_ofNat_reg]
  omega

theorem toNat_setWidth_offset_lt (o : Offset) : (o.setWidth 32).toNat < 65536 := by
  rw [toNat_setWidth_offset]
  exact o.isLt

theorem destRegField_ofNat (d : RegNum) : destRegField (BitVec.ofNat 32 d.val) = d :=
  Fin.ext (by rw [destRegField_val, toNat_ofNat_reg]; omega)

theorem offsetField_setWidth (o : Offset) : offsetField (o.setWidth 32) = o :=
  BitVec.eq_of_toNat_eq (by rw [offsetField_toNat, toNat_setWidth_offset]; omega)

/-- R85: decoding finds each operand again in the field it was packed into. -/
theorem decode_encode (i : Instr) : decode (encode i) = i := by
  cases i with
  | add a b d => exact (decode_packFields 0 a b (toNat_ofNat_reg_lt d)).trans (by rw [destRegField_ofNat]; rfl)
  | nor a b d => exact (decode_packFields 1 a b (toNat_ofNat_reg_lt d)).trans (by rw [destRegField_ofNat]; rfl)
  | lw a b o => exact (decode_packFields 2 a b (toNat_setWidth_offset_lt o)).trans (by rw [offsetField_setWidth]; rfl)
  | sw a b o => exact (decode_packFields 3 a b (toNat_setWidth_offset_lt o)).trans (by rw [offsetField_setWidth]; rfl)
  | beq a b o => exact (decode_packFields 4 a b (toNat_setWidth_offset_lt o)).trans (by rw [offsetField_setWidth]; rfl)
  | jalr a b => exact decode_packFields 5 a b (by decide)
  | halt => exact decode_packFields 6 0 0 (by decide)
  | noop => exact decode_packFields 7 0 0 (by decide)

/-- Settles O1, by `decode_encode`. -/
theorem decodeInvertsEncode : Obligations.DecodeInvertsEncode := decode_encode

/-! Packing the fields of a Word again keeps the bits of those fields -/

/-- A field moved back to its place is the Word masked to the bits of that field. -/
theorem ofNat_extractLsb'_shiftLeft (w : Word) (k n : Nat) :
    BitVec.ofNat 32 (w.extractLsb' k n).toNat <<< k = w &&& ((BitVec.allOnes n).setWidth 32 <<< k) := by
  rw [BitVec.ofNat_toNat]
  apply BitVec.eq_of_getLsbD_eq
  intro i hi
  simp only [BitVec.getLsbD_shiftLeft, BitVec.getLsbD_setWidth, BitVec.getLsbD_extractLsb', BitVec.getLsbD_and,
    BitVec.getLsbD_allOnes]
  by_cases hk : i < k
  · simp [hk]
  · simp [hk, hi, show k + (i - k) = i by omega, show i - k < 32 by omega, Bool.and_comm]

theorem ofNat_extractLsb'_zero (w : Word) (n : Nat) :
    BitVec.ofNat 32 (w.extractLsb' 0 n).toNat = w &&& (BitVec.allOnes n).setWidth 32 := by
  simpa only [BitVec.shiftLeft_zero] using ofNat_extractLsb'_shiftLeft w 0 n

theorem opcodeField_shiftLeft (w : Word) : BitVec.ofNat 32 (opcodeField w).val <<< 22 = w &&& 0x01C00000#32 :=
  ofNat_extractLsb'_shiftLeft w 22 3

theorem packFields_fields (w low : Word) :
    packFields (opcodeField w) (regAField w) (regBField w) low = w &&& 0x01FF0000#32 ||| low := by
  have ha : BitVec.ofNat 32 (regAField w).val <<< 19 = w &&& 0x00380000#32 := ofNat_extractLsb'_shiftLeft w 19 3
  have hb : BitVec.ofNat 32 (regBField w).val <<< 16 = w &&& 0x00070000#32 := ofNat_extractLsb'_shiftLeft w 16 3
  rw [packFields, opcodeField_shiftLeft, ha, hb, ← BitVec.and_or_distrib_left, ← BitVec.and_or_distrib_left]
  rfl

section
variable {w : Word} {op : Fin 8} (hop : opcodeField w = op)
include hop

theorem packFields_destRegField :
    packFields op (regAField w) (regBField w) (BitVec.ofNat 32 (destRegField w).val) = w &&& 0x01FF0007#32 := by
  have hd : BitVec.ofNat 32 (destRegField w).val = w &&& 0x00000007#32 := ofNat_extractLsb'_zero w 3
  rw [← hop, packFields_fields, hd, ← BitVec.and_or_distrib_left]
  rfl

theorem packFields_offsetField :
    packFields op (regAField w) (regBField w) ((offsetField w).setWidth 32) = w &&& 0x01FFFFFF#32 := by
  have ho : BitVec.ofNat 32 (offsetField w).toNat = w &&& 0x0000FFFF#32 := ofNat_extractLsb'_zero w 16
  rw [← hop, packFields_fields, ← BitVec.ofNat_toNat, ho, ← BitVec.and_or_distrib_left]
  rfl

theorem packFields_regFields : packFields op (regAField w) (regBField w) 0#32 = w &&& 0x01FF0000#32 := by
  rw [← hop, packFields_fields, BitVec.or_zero]

theorem packFields_opcodeField : packFields op 0 0 0#32 = w &&& 0x01C00000#32 := by
  rw [← hop, ← opcodeField_shiftLeft]
  simp [packFields]

end

/-- R82, R186: encoding what was decoded keeps exactly the bits that the decoder reads. -/
theorem encode_decode (w : Word) : encode (decode w) = w &&& (decode w).decodedBits := by
  unfold decode
  split
  case h_1 hop => exact packFields_destRegField hop
  case h_2 hop => exact packFields_destRegField hop
  case h_3 hop => exact packFields_offsetField hop
  case h_4 hop => exact packFields_offsetField hop
  case h_5 hop => exact packFields_offsetField hop
  case h_6 hop => exact packFields_regFields hop
  case h_7 hop => exact packFields_opcodeField hop
  case h_8 hop => exact packFields_opcodeField hop

/-- Settles O2: the masks of the statement are `Instr.decodedBits`, by the shape of the instruction. -/
theorem encodeOfDecodeClearsOnlyIgnoredBits : Obligations.EncodeOfDecodeClearsOnlyIgnoredBits := by
  intro w
  have h := encode_decode w
  generalize decode w = i at h ⊢
  cases i <;> exact h

/-! The match value of the opcode map (R80), and the bits without effect (R82) -/

theorem opcodeField_and {m : Word} (w : Word) (hm : m &&& 0x01C00000#32 = 0x01C00000#32) :
    opcodeField (w &&& m) = opcodeField w := by
  have hmask (v : Word) : opcodeField v = opcodeField (v &&& 0x01C00000#32) := by
    rw [← opcodeField_shiftLeft]
    generalize opcodeField v = op
    revert op
    decide
  rw [hmask, BitVec.and_assoc, hm, ← hmask]

theorem opcodeField_of_match {w v : Word} (h : w &&& 0x01C00000#32 = v) : opcodeField w = opcodeField v := by
  rw [← h, opcodeField_and w rfl]

/-- R80: a match value selects the instruction that its own opcode field names. -/
theorem decode_of_match {w v : Word} (h : w &&& 0x01C00000#32 = v) :
    decode w = .ofFields (opcodeField v) (regAField w) (regBField w) (destRegField w) (offsetField w) := by
  rw [decode_eq_ofFields, opcodeField_of_match h]

/-- Settles O4: the arithmetic of the hypotheses names the fields, and the match value the opcode. -/
theorem decodeFollowsOpcodeMap : Obligations.DecodeFollowsOpcodeMap := by
  intro w a b d o ha hb hd ho
  obtain rfl : a = regAField w := Fin.ext (ha.trans (regAField_val w).symm)
  obtain rfl : b = regBField w := Fin.ext (hb.trans (regBField_val w).symm)
  obtain rfl : d = destRegField w := Fin.ext (hd.trans (destRegField_val w).symm)
  obtain rfl : o = offsetField w := BitVec.eq_of_toNat_eq (ho.trans (offsetField_toNat w).symm)
  exact ⟨decode_of_match, decode_of_match, decode_of_match, decode_of_match, decode_of_match, decode_of_match,
    decode_of_match, decode_of_match⟩

/-- The opcode field alone decides which bits are read. -/
theorem decodedBits_decode_congr {w v : Word} (h : opcodeField w = opcodeField v) :
    (decode w).decodedBits = (decode v).decodedBits := by
  rw [decode_eq_ofFields, decode_eq_ofFields, h]
  generalize opcodeField v = op
  fin_cases op <;> rfl

theorem decodedBits_cases (i : Instr) :
    i.decodedBits = 0x01FF0007#32 ∨ i.decodedBits = 0x01FFFFFF#32 ∨ i.decodedBits = 0x01FF0000#32 ∨
      i.decodedBits = 0x01C00000#32 := by
  cases i <;> simp [Instr.decodedBits]

theorem decodedBits_and_opcode (i : Instr) : i.decodedBits &&& 0x01C00000#32 = 0x01C00000#32 := by
  rcases decodedBits_cases i with h | h | h | h <;> rw [h] <;> rfl

theorem and_decodedBits_low25 (i : Instr) : 0x01FFFFFF#32 &&& i.decodedBits = i.decodedBits := by
  rcases decodedBits_cases i with h | h | h | h <;> rw [h] <;> rfl

/-- R82: clearing bits that the decoder does not read leaves the decoded instruction as it was. Both Words have the same
decoded bits, and `encode_decode` recovers each instruction from those. -/
theorem decode_and {w m : Word} (hm : m &&& (decode w).decodedBits = (decode w).decodedBits) :
    decode (w &&& m) = decode w := by
  have hop : opcodeField (w &&& m) = opcodeField w := opcodeField_and w (by
    rw [← decodedBits_and_opcode (decode w), ← BitVec.and_assoc, hm])
  have henc : encode (decode (w &&& m)) = encode (decode w) := by
    rw [encode_decode, encode_decode, decodedBits_decode_congr hop, BitVec.and_assoc, hm]
  rw [← decode_encode (decode (w &&& m)), henc, decode_encode]

theorem decode_and_of_match {w v m : Word} (h : w &&& 0x01C00000#32 = v)
    (hm : m &&& (decode v).decodedBits = (decode v).decodedBits) : decode (w &&& m) = decode w :=
  decode_and (by rwa [decodedBits_decode_congr (opcodeField_of_match h)])

theorem encode_and_not_decodedBits (i : Instr) : encode i &&& ~~~i.decodedBits = 0#32 := by
  have h : encode i = encode i &&& i.decodedBits := by
    simpa only [decode_encode] using encode_decode (encode i)
  rw [h, BitVec.and_assoc, BitVec.and_not_self]
  exact BitVec.and_zero

/-- Settles O3: the cleared bits are ones that the decoder does not read, so the decoded instruction is the same. -/
theorem ignoredBitsHaveNoEffect : Obligations.IgnoredBitsHaveNoEffect := by
  refine ⟨fun w s => ?_, fun w s h => ?_, fun w s h => ?_, fun w s h => ?_, encode_and_not_decodedBits⟩
  · rw [decode_and (and_decodedBits_low25 (decode w))]
  · rcases h with h | h <;> rw [decode_and_of_match h rfl]
  · rw [decode_and_of_match h rfl]
  · rcases h with h | h <;> rw [decode_and_of_match h rfl]

/-! The canonical Words as sums (R84) -/

theorem toNat_packFields_reg (op : Fin 8) (a b d : RegNum) :
    (packFields op a b (BitVec.ofNat 32 d.val)).toNat =
      op.val * 2 ^ 22 + a.val * 2 ^ 19 + b.val * 2 ^ 16 + d.val := by
  rw [packFields_toNat op a b (toNat_ofNat_reg_lt d), toNat_ofNat_reg]
  rfl

theorem sint16_emod (o : Offset) : Machine.sint16 o % 2 ^ 16 = o.toNat := by
  have ho := o.isLt
  rw [Machine.sint16, BitVec.toInt_eq_toNat_bmod]
  exact Int.bmod_emod.trans (by omega)

theorem toNat_packFields_offset (op : Fin 8) (a b : RegNum) (o : Offset) :
    ((packFields op a b (o.setWidth 32)).toNat : Int) =
      op.val * 2 ^ 22 + a.val * 2 ^ 19 + b.val * 2 ^ 16 + Machine.sint16 o % 2 ^ 16 := by
  rw [packFields_toNat op a b (toNat_setWidth_offset_lt o), toNat_setWidth_offset, sint16_emod]
  push_cast
  rfl

theorem toNat_encode_lt (i : Instr) : (encode i).toNat < 2 ^ 25 := by
  cases i with
  | add a b d => exact Laws.CanonicalBound.add a b d
  | nor a b d => exact Laws.CanonicalBound.nor a b d
  | lw a b o => exact Laws.CanonicalBound.lw a b o
  | sw a b o => exact Laws.CanonicalBound.sw a b o
  | beq a b o => exact Laws.CanonicalBound.beq a b o
  | jalr a b => exact Laws.CanonicalBound.jalr a b
  | halt => exact Laws.CanonicalBound.halt
  | noop => exact Laws.CanonicalBound.noop

theorem sint_encode_bounds (i : Instr) : 0 ≤ Machine.sint (encode i) ∧ Machine.sint (encode i) < 2 ^ 25 := by
  have hlt := toNat_encode_lt i
  have hsint : Machine.sint (encode i) = (encode i).toNat := BitVec.toInt_eq_toNat_of_lt (by omega)
  omega

/-- Settles O5: one formula for each kind of low part, and the bound of every packing. -/
theorem canonicalWordFormulas : Obligations.CanonicalWordFormulas :=
  ⟨toNat_packFields_reg 0, toNat_packFields_reg 1, toNat_packFields_offset 2, toNat_packFields_offset 3,
    toNat_packFields_offset 4, fun a b => toNat_packFields_reg 5 a b 0, rfl, rfl, sint_encode_bounds⟩

/-- Settles O6: eight closed decodings. -/
theorem specWordsDecode : Obligations.SpecWordsDecode := by
  unfold Obligations.SpecWordsDecode
  decide

end Sys2Proof

/-! ### The faults of a step (R83, R210) -/

namespace Sys2Proof.Machine

/-- R210, R211: the fault kinds that a step can raise: one for the fetch, two for a body, one for the fuse. -/
inductive RunFault : FaultKind → Prop where
  | fetch (pc : Int) : RunFault (.fetchOutOfRange pc)
  | negative (v : Int) : RunFault (.negativeAddress v)
  | beyond (ea : Int) : RunFault (.memoryOutOfRange ea)
  | fuse (n : Nat) : RunFault (.runtimeBudgetExceeded n)

theorem exec_runFault {i : Instr} {s u : State} {kind : FaultKind} (h : exec i s = .next u)
    (hs : s.runState = .running) (hu : u.runState = .faulted kind) : RunFault kind := by
  rcases exec_runState h with ⟨hsame, -⟩ | ⟨-, hhalt⟩ | ⟨v, hneg⟩ | ⟨v, hbig⟩
  · cases hu.symm.trans (hsame.trans hs)
  · cases hu.symm.trans hhalt
  · cases hu.symm.trans hneg
    exact .negative v
  · cases hu.symm.trans hbig
    exact .beyond v

theorem finish_runFault {u : State} {kind : FaultKind} (h : (finish u).runState = .faulted kind) :
    u.runState = .faulted kind ∨ RunFault kind := by
  rcases finish_cases u with ⟨_, -, e⟩ | ⟨hhalt, e⟩ | ⟨hrun, -, e⟩ | ⟨-, -, e⟩ <;> rw [e] at h
  · exact .inl h
  · cases h.symm.trans hhalt
  · cases h.symm.trans hrun
  · cases h
    exact .inr (.fuse _)

theorem step_runFault {s t : State} {kind : FaultKind} (h : step s = .next t) (ht : t.runState = .faulted kind) :
    RunFault kind := by
  obtain ⟨hrun, ⟨-, rfl⟩ | ⟨-, u, hu, rfl⟩⟩ := step_cases h
  · cases ht
    exact .fetch _
  · exact (finish_runFault ht).elim (exec_runFault hu hrun) id

/-- Settles O20: none of the four kinds that a step raises is excluded, and their codes are 1, 2, 3 and 5. -/
theorem stepRaisesOnlyRunFaults : Obligations.StepRaisesOnlyRunFaults := by
  intro s t kind h ht
  cases step_runFault h ht <;> simp [FaultKind.code]

end Sys2Proof.Machine

/-! ### The step (spec/40_step.md): where it goes, how it ends, and what a run of steps keeps -/

namespace Sys2Proof.Machine

/-! What follows a body (R106, R107), by the run state the body left -/

section
variable {s : State}

theorem finish_of_faulted {kind : FaultKind} (h : s.runState = .faulted kind) : finish s = s := by
  simp [finish, h]

theorem finish_of_halted (h : s.runState = .halted) : finish s = count s := by
  simp [finish, fuse, h]

theorem finish_of_budget_reached (h : s.runState = .running) (hb : (count s).budgetReached = true) :
    finish s = raise (.runtimeBudgetExceeded (s.instCount + 1)) (count s) := by
  simp [finish, fuse, h, hb]

theorem finish_of_budget_not_reached (h : s.runState = .running) (hb : (count s).budgetReached = false) :
    finish s = count s := by
  simp [finish, fuse, h, hb]

theorem budgetReached_of_some {b : Nat} (h : s.instBudget = some b) : s.budgetReached = decide (b ≤ s.instCount) := by
  simp [State.budgetReached, h]

theorem budgetReached_of_none (h : s.instBudget = none) : s.budgetReached = false := by
  simp [State.budgetReached, h]

/-! The step as an equation, by the run state and the fetch range (R100, R101, R105) -/

theorem step_of_halted (h : s.runState = .halted) : step s = .fault .stepWhileHalted := by
  simp [step, h]

theorem step_of_faulted {kind : FaultKind} (h : s.runState = .faulted kind) :
    step s = .fault (.stepWhileFaulted kind) := by
  simp [step, h]

theorem step_outOfRange (h : s.runState = .running) (hf : ¬ s.InFetchRange) :
    step s = .next (raise (.fetchOutOfRange s.pc) s) := by
  simp [step, h, fetch_outOfRange hf]

theorem step_inRange {u : State} (h : s.runState = .running) (hf : s.InFetchRange)
    (hu : exec (decode (s.memRead s.pc.toNat)) (advance s) = .next u) : step s = .next (finish u) := by
  simp [step, h, fetch_inRange hf, hu, complete]

theorem step_exists_of_running (h : s.runState = .running) : ∃ t, step s = .next t := by
  by_cases hf : s.InFetchRange
  · obtain ⟨u, hu⟩ := exec_next (decode (s.memRead s.pc.toNat)) (advance s)
    exact ⟨_, step_inRange h hf hu⟩
  · exact ⟨_, step_outOfRange h hf⟩

end

/-- Settles O7: a running block steps whether its fetch is in range or not, and only a running one does (`step_cases`). -/
theorem stepExistsExactlyWhileRunning : Obligations.StepExistsExactlyWhileRunning := fun _ =>
  ⟨fun ⟨_, h⟩ => (step_cases h).1, step_exists_of_running⟩

/-- Settles O8: each terminal state has its own answer, and none of the three run states leads to a refusal. -/
theorem stoppedBlockAnswersNamedFault : Obligations.StoppedBlockAnswersNamedFault := by
  refine ⟨fun _ => step_of_halted, fun _ _ => step_of_faulted, fun s r hrefused => ?_⟩
  cases hrun : s.runState with
  | running =>
    obtain ⟨t, ht⟩ := step_exists_of_running hrun
    cases ht.symm.trans hrefused
  | halted => cases (step_of_halted hrun).symm.trans hrefused
  | faulted kind => cases (step_of_faulted hrun).symm.trans hrefused

/-- Settles O9: `pc` beyond either bound is outside the fetch range, and inside it the fetch reads memory at `pc`. -/
theorem fetchIsBoundedByLoadedRange : Obligations.FetchIsBoundedByLoadedRange := by
  refine ⟨fun s hrun hout => step_outOfRange hrun ?_, fun s h0 h1 => fetch_inRange ⟨h0, h1⟩⟩
  rintro ⟨h0, h1⟩
  omega

/-- Settles O10: the step is `finish` of the body's state, and each clause names one outcome of `finish`. -/
theorem stepRunsDecodedInstruction : Obligations.StepRunsDecodedInstruction := by
  rintro s t _ hrun h0 h1 rfl hbody
  have hstep : step s = .next (finish t) := step_inRange hrun ⟨h0, h1⟩ hbody
  rw [hstep]
  refine ⟨fun kind ht => ?_, fun ht => ?_, fun b ht hb hle => ?_, fun b ht hb hlt => ?_, fun ht hb => ?_⟩
  · rw [finish_of_faulted ht]
  · rw [finish_of_halted ht]
    rfl
  · have hreached : (count t).budgetReached = true := (budgetReached_iff (count t)).mpr ⟨b, hb, hle⟩
    rw [finish_of_budget_reached ht hreached]
    rfl
  · have hbelow : (count t).budgetReached = false :=
      (budgetReached_of_some (s := count t) hb).trans (decide_eq_false (not_le.mpr hlt))
    rw [finish_of_budget_not_reached ht hbelow]
    rfl
  · rw [finish_of_budget_not_reached ht (budgetReached_of_none (s := count t) hb)]
    rfl

/-! How a step ends: the run state, the count and the fuse together -/

/-- R106, R107: the four ways a step from `s` can end: uncounted, at a fault of the fetch or the body; counted, at a
`halt`; counted, still running below the ceiling; or counted, stopped by the fuse at the ceiling. -/
inductive StepEnd (s t : State) : Prop where
  | fault (kind : FaultKind) (run : t.runState = .faulted kind) (notFuse : ∀ c, kind ≠ .runtimeBudgetExceeded c)
      (uncounted : t.instCount = s.instCount)
  | halt (run : t.runState = .halted) (counted : t.instCount = s.instCount + 1)
  | goOn (run : t.runState = .running) (counted : t.instCount = s.instCount + 1) (below : t.budgetReached = false)
  | fuse (run : t.runState = .faulted (.runtimeBudgetExceeded t.instCount)) (counted : t.instCount = s.instCount + 1)
      (reached : t.budgetReached = true)

theorem exec_fault_not_fuse {i : Instr} {s u : State} {kind : FaultKind} (h : exec i s = .next u)
    (hs : s.runState = .running) (hu : u.runState = .faulted kind) (c : Nat) : kind ≠ .runtimeBudgetExceeded c := by
  rintro rfl
  rcases exec_runState h with ⟨hsame, -⟩ | ⟨-, hhalt⟩ | ⟨v, hneg⟩ | ⟨v, hbig⟩
  · cases hu.symm.trans (hsame.trans hs)
  · cases hu.symm.trans hhalt
  · cases hu.symm.trans hneg
  · cases hu.symm.trans hbig

theorem step_end {s t : State} (h : step s = .next t) : StepEnd s t := by
  obtain ⟨hrun, ⟨-, rfl⟩ | ⟨-, u, hu, rfl⟩⟩ := step_cases h
  · exact .fault _ rfl (fun _ => by simp) rfl
  · have hcount : u.instCount = s.instCount := (exec_keeps_counters hu).1
    have hcounted : (count u).instCount = s.instCount + 1 := congrArg (· + 1) hcount
    rcases finish_cases u with ⟨kind, hfault, e⟩ | ⟨hhalt, e⟩ | ⟨hgo, hbelow, e⟩ | ⟨-, hreached, e⟩ <;> rw [e]
    · exact .fault kind hfault (exec_fault_not_fuse hu hrun hfault) hcount
    · exact .halt hhalt hcounted
    · exact .goOn hgo hcounted hbelow
    · exact .fuse rfl hcounted hreached

/-- Settles O11: of the four ends of a step only the fault that is not the fuse's is uncounted. -/
theorem stepCountsCompletedInstructions : Obligations.StepCountsCompletedInstructions := by
  intro s t h
  cases step_end h with
  | fault kind run notFuse uncounted => simp [run, notFuse, uncounted]
  | halt run counted => simp [run, counted]
  | goOn run counted below => simp [run, counted]
  | fuse run counted reached => simp [run, counted]

/-! The fuse (R107) -/

theorem step_keeps_instBudget {s t : State} (h : step s = .next t) : t.instBudget = s.instBudget :=
  (stepKeepsLoadedWordCount s t h).2

theorem instCount_lt_of_step_running {s t : State} {b : Nat} (h : step s = .next t) (hb : s.instBudget = some b)
    (ht : t.runState = .running) : t.instCount < b := by
  cases step_end h with
  | fault kind run notFuse uncounted => cases run.symm.trans ht
  | halt run counted => cases run.symm.trans ht
  | goOn run counted below =>
    have hbudget : t.instBudget = some b := (step_keeps_instBudget h).trans hb
    simpa [budgetReached_of_some hbudget] using below
  | fuse run counted reached => cases run.symm.trans ht

theorem budget_le_of_step_fuse {s t : State} {c : Nat} (h : step s = .next t)
    (ht : t.runState = .faulted (.runtimeBudgetExceeded c)) :
    c = t.instCount ∧ ∃ b, s.instBudget = some b ∧ b ≤ c := by
  cases step_end h with
  | fault kind run notFuse uncounted =>
    cases run.symm.trans ht
    exact absurd rfl (notFuse c)
  | halt run counted => cases run.symm.trans ht
  | goOn run counted below => cases run.symm.trans ht
  | fuse run counted reached =>
    cases run.symm.trans ht
    exact ⟨rfl, step_keeps_instBudget h ▸ (budgetReached_iff t).mp reached⟩

theorem step_of_halt {s : State} (h : s.runState = .running) (hf : s.InFetchRange)
    (hi : decode (s.memRead s.pc.toNat) = .halt) : ∃ t, step s = .next t ∧ t.runState = .halted := by
  have hbody : exec (decode (s.memRead s.pc.toNat)) (advance s) = .next { advance s with runState := .halted } := by
    rw [hi, exec_halt]
  refine ⟨_, step_inRange h hf hbody, ?_⟩
  rw [finish_of_halted rfl, count_runState]

/-- Settles O12: the ceiling is no step's to change, so the fuse of a step looks at the ceiling the step began with. -/
theorem fuseFiresExactlyAtCeiling : Obligations.FuseFiresExactlyAtCeiling := by
  refine ⟨fun _ _ _ => instCount_lt_of_step_running, fun _ _ _ => budget_le_of_step_fuse, fun s t c h hnone ht => ?_,
    fun _ hrun h0 h1 => step_of_halt hrun ⟨h0, h1⟩⟩
  obtain ⟨-, b, hb, -⟩ := budget_le_of_step_fuse h ht
  cases hnone.symm.trans hb

/-! Runs (R110): what every step keeps holds wherever a run leads -/

theorem Reaches.keeps {P : State → Prop} (hstep : ∀ s t, step s = .next t → P s → P t) {s t : State}
    (h : Reaches s t) (hs : P s) : P t := by
  induction h with
  | refl => exact hs
  | tail t u _ hlast ih => exact hstep t u hlast ih

theorem reaches_keeps_instBudget {s t : State} (h : Reaches s t) : t.instBudget = s.instBudget :=
  h.keeps (P := fun u => u.instBudget = s.instBudget) (fun _ _ hstep => (step_keeps_instBudget hstep).trans) rfl

theorem reaches_keeps_withinBudget {s t : State} (h : Reaches s t) : s.WithinBudget → t.WithinBudget :=
  h.keeps fun _ _ => step_keeps_withinBudget

theorem load_of_no_error {image : List Token} (h : loadError image = none) (budget : Option Nat) (junk : State) :
    load image budget junk = loadedState ((imageWords image).getD []) budget := by
  simp [load, h]

theorem loadedState_withinBudget (ws : List Word) (budget : Option Nat) : (loadedState ws budget).WithinBudget :=
  fun _ _ hb => ⟨Nat.zero_le _, fun _ => hb⟩

/-- Settles O13: a loaded block is within its ceiling, and every step keeps that and the ceiling itself. -/
theorem runExecutesAtMostBudget : Obligations.RunExecutesAtMostBudget := by
  intro image b junk s hload hb hreach
  rw [load_of_no_error hload] at hreach
  have hbudget : s.instBudget = some b := reaches_keeps_instBudget hreach
  exact (reaches_keeps_withinBudget hreach (loadedState_withinBudget _ _) b hbudget hb).1

/-! A table word placed where the step fetches (notes/assumptions/10.md) -/

theorem fetchSlot_lt (s : State) : s.fetchSlot < Config.memWords := by
  simp only [State.fetchSlot, Config.memWords]
  split <;> omega

section
variable (s : State) (nbits w : Nat)

@[simp] theorem withFetchWord_runState : (s.withFetchWord nbits w).runState = .running := rfl

@[simp] theorem withFetchWord_pc : (s.withFetchWord nbits w).pc = s.fetchSlot := rfl

/-- The loaded range still fits in its field, so that it is the larger of the old one and the one that ends at the slot. -/
theorem withFetchWord_loadedWordCount :
    (s.withFetchWord nbits w).loadedWordCount.val = max s.loadedWordCount.val (s.fetchSlot + 1) := by
  have hslot := fetchSlot_lt s
  have hloaded := s.loadedWordCount.isLt
  exact Nat.mod_eq_of_lt (max_lt hloaded (Nat.succ_lt_succ hslot))

theorem withFetchWord_inFetchRange : (s.withFetchWord nbits w).InFetchRange := by
  simp only [State.InFetchRange, withFetchWord_pc, withFetchWord_loadedWordCount]
  omega

theorem memRead_withFetchWord (h : s.mem.wf = true) :
    (s.withFetchWord nbits w).memRead (s.withFetchWord nbits w).pc.toNat = tableWord nbits w :=
  readWord_writeWord_same h (fetchSlot_lt s) _

end

theorem decode_tableWord {nbits w : Nat} {i : Instr} (h : decodeTableWord nbits w = some i) :
    decode (tableWord nbits w) = i := by
  unfold decodeTableWord at h
  split at h
  · exact Option.some.inj h
  · cases h

/-- Settles O23: the slot is inside the loaded range, and the Word read there is the one just placed. -/
theorem fetchWordRunsNext : Obligations.FetchWordRunsNext := by
  intro s t nbits w i hwf hrow hbody
  refine step_inRange (withFetchWord_runState s nbits w) (withFetchWord_inFetchRange s nbits w) ?_
  rw [memRead_withFetchWord s nbits w hwf, decode_tableWord hrow, hbody]

end Sys2Proof.Machine

/-! ### The R-type instructions (spec/41_r_type.md): their canonical Words, their results and their frame -/

namespace Sys2Proof

/-- R84: a canonical Word as the sum of its shifted fields and its low part. -/
theorem packFields_eq_ofNat (op : Fin 8) (a b : RegNum) {low : Word} (h : low.toNat < 65536) :
    packFields op a b low =
      BitVec.ofNat 32 (op.val * 2 ^ 22 + a.val * 2 ^ 19 + b.val * 2 ^ 16 + low.toNat) := by
  have hsum : (packFields op a b low).toNat = op.val * 2 ^ 22 + a.val * 2 ^ 19 + b.val * 2 ^ 16 + low.toNat :=
    packFields_toNat op a b h
  rw [← hsum, BitVec.ofNat_toNat, BitVec.setWidth_eq]

theorem packFields_reg_eq_ofNat (op : Fin 8) (a b d : RegNum) :
    packFields op a b (BitVec.ofNat 32 d.val) =
      BitVec.ofNat 32 (op.val * 2 ^ 22 + a.val * 2 ^ 19 + b.val * 2 ^ 16 + d.val) := by
  rw [packFields_eq_ofNat op a b (toNat_ofNat_reg_lt d), toNat_ofNat_reg]

/-- R82: a Word that agrees with the canonical one on the bits the decoder reads decodes to the same instruction. -/
theorem decode_of_and_decodedBits {i : Instr} {w : Word} (h : w &&& i.decodedBits = encode i) : decode w = i := by
  have hop : opcodeField w = opcodeField (encode i) := by
    rw [← h, opcodeField_and w (decodedBits_and_opcode i)]
  have hbits : (decode w).decodedBits = i.decodedBits := by
    rw [decodedBits_decode_congr hop, decode_encode]
  calc decode w = decode (w &&& i.decodedBits) := (decode_and (by rw [hbits, BitVec.and_self])).symm
    _ = i := by rw [h, decode_encode]

end Sys2Proof

namespace Sys2Proof.Machine

theorem sameRegsExcept_writeReg (s : State) (r : RegNum) (v : Word) : SameRegsExcept [r] s (s.writeReg r v) :=
  fun _ hr => readReg_writeReg_ne s v (List.ne_of_not_mem_cons hr)

/-- The frame of a register write: the other registers, memory, the counters, `pc` and the run state are as before. -/
theorem writeReg_frame (s : State) (r : RegNum) (v : Word) :
    SameRegsExcept [r] s (s.writeReg r v) ∧ SameMemory s (s.writeReg r v) ∧ SameCounters s (s.writeReg r v) ∧
      (s.writeReg r v).pc = s.pc ∧ (s.writeReg r v).runState = s.runState :=
  ⟨sameRegsExcept_writeReg s r v, fun _ => rfl, ⟨rfl, rfl, rfl⟩, rfl, rfl⟩

/-- R120: the integer sum that `word` reduces is the sum of the two numbers. -/
theorem toNat_addWords (v w : Word) : (addWords v w).toNat = (v.toNat + w.toNat) % 2 ^ 32 := by
  have h : ((addWords v w).toNat : Int) = (uint v + uint w) % 2 ^ 32 := toNat_wordOf _
  simp only [uint] at h
  omega

theorem getLsbD_norWords (v w : Word) {k : Nat} (hk : k < 32) :
    (norWords v w).getLsbD k = !(v.getLsbD k || w.getLsbD k) := by
  simp [norWords, hk]

/-- Settles O35: `add` is one register write, of the sum. -/
theorem addWritesSumAndNothingElse : Obligations.AddWritesSumAndNothingElse := by
  intro a b d s
  refine ⟨packFields_reg_eq_ofNat 0 a b d, fun _ => decode_of_and_decodedBits (i := .add a b d), _, exec_add s a b d,
    ?_, ?_, writeReg_frame s d _⟩
  · exact readReg_writeReg_same s d _
  · rw [readReg_writeReg_same, toNat_addWords]

/-- Settles O36: `nor` is one register write, of the NOR. -/
theorem norWritesNorAndNothingElse : Obligations.NorWritesNorAndNothingElse := by
  intro a b d s
  refine ⟨packFields_reg_eq_ofNat 1 a b d, fun _ => decode_of_and_decodedBits (i := .nor a b d), _, exec_nor s a b d,
    fun k hk => ?_, writeReg_frame s d _⟩
  rw [readReg_writeReg_same, getLsbD_norWords _ _ hk]

end Sys2Proof.Machine

/-! ### The I-type instructions (spec/42_i_type.md): their canonical Words, their results, their faults and their frame -/

namespace Sys2Proof

theorem packFields_offset_eq_ofNat (op : Fin 8) (a b : RegNum) (o : Offset) :
    packFields op a b (o.setWidth 32) =
      BitVec.ofNat 32 (op.val * 2 ^ 22 + a.val * 2 ^ 19 + b.val * 2 ^ 16 + o.toNat) := by
  rw [packFields_eq_ofNat op a b (toNat_setWidth_offset_lt o), toNat_setWidth_offset]

end Sys2Proof

namespace Sys2Proof.Machine

/-- The cells outside the written Word read as they did. -/
theorem sameMemoryOutside_memWrite {s : State} (h : s.mem.wf = true) {a : Nat} (ha : a < Config.memWords) (v : Word) :
    SameMemoryOutside a s (s.memWrite a v) := by
  intro k hk
  rw [memWrite_mem, readCell_writeWord h ha, if_neg (by omega), if_neg (by omega), if_neg (by omega), if_neg (by omega)]

/-- The frame of a memory write: every cell outside the Word, the registers, the counters, `pc` and the run state are as
before. -/
theorem memWrite_frame {s : State} (h : s.mem.wf = true) {a : Nat} (ha : a < Config.memWords) (v : Word) :
    SameMemoryOutside a s (s.memWrite a v) ∧ SameRegsExcept [] s (s.memWrite a v) ∧
      SameCounters s (s.memWrite a v) ∧
      (s.memWrite a v).pc = s.pc ∧ (s.memWrite a v).runState = s.runState :=
  ⟨sameMemoryOutside_memWrite h ha v, fun _ _ => rfl, ⟨rfl, rfl, rfl⟩, rfl, rfl⟩

theorem jumpTo_of_nonneg {p : Int} (h : 0 ≤ p) (s : State) : jumpTo p s = { s with pc := p } :=
  if_neg (by omega)

theorem jumpTo_of_negative {p : Int} (h : p < 0) (s : State) : jumpTo p s = raise (.negativeAddress p) s :=
  if_pos h

theorem exec_beq_of_eq {s : State} {a b : RegNum} (h : s.readReg a = s.readReg b) (o : Offset) :
    exec (.beq a b o) s = .next (jumpTo (s.pc + sint16 o) s) := by
  rw [exec_beq, if_pos h]

theorem exec_beq_of_ne {s : State} {a b : RegNum} (h : s.readReg a ≠ s.readReg b) (o : Offset) :
    exec (.beq a b o) s = .next s := by
  rw [exec_beq, if_neg h]

/-- Settles O37: in range `lw` is one register write, of the Word read; its faults are those of every data access. -/
theorem lwLoadsWordOrFaults : Obligations.LwLoadsWordOrFaults := by
  intro a b o s
  refine ⟨packFields_offset_eq_ofNat 2 a b o, fun _ => decode_of_and_decodedBits (i := .lw a b o),
    fun hnonneg hlt => ?_, outOfRangeAccessWritesNothing a b o s _ (.inl rfl)⟩
  have hok : checkAddress (effectiveAddress s a o) = .ok (effectiveAddress s a o).toNat :=
    checkAddress_inRange hnonneg hlt
  exact ⟨_, exec_lw_ok hok b, readReg_writeReg_same s b _, writeReg_frame s b _⟩

/-- Settles O38: in range `sw` is one memory write, of the register's Word; its faults are those of every data access. -/
theorem swStoresWordOrFaults : Obligations.SwStoresWordOrFaults := by
  intro a b o s
  refine ⟨packFields_offset_eq_ofNat 3 a b o, fun _ => decode_of_and_decodedBits (i := .sw a b o),
    fun hwf hnonneg hlt => ?_, outOfRangeAccessWritesNothing a b o s _ (.inr rfl)⟩
  have hok : checkAddress (effectiveAddress s a o) = .ok (effectiveAddress s a o).toNat :=
    checkAddress_inRange hnonneg hlt
  have hea : (effectiveAddress s a o).toNat < Config.memWords := (Int.toNat_lt hnonneg).mpr hlt
  exact ⟨_, exec_sw_ok hok b, readWord_writeWord_same hwf hea _, memWrite_frame hwf hea _⟩

/-- Settles O39: equal Words jump, by the checked change of `pc`; different Words do nothing. -/
theorem beqBranchesOnEqualWords : Obligations.BeqBranchesOnEqualWords := by
  intro a b o s
  refine ⟨packFields_offset_eq_ofNat 4 a b o, fun _ => decode_of_and_decodedBits (i := .beq a b o),
    fun heq hnonneg => ?_, fun heq hneg => ?_, fun hne => exec_beq_of_ne hne o⟩
  · rw [exec_beq_of_eq heq, jumpTo_of_nonneg hnonneg]
  · rw [exec_beq_of_eq heq, jumpTo_of_negative hneg, raise]

end Sys2Proof.Machine

/-! ### The J-type instruction (spec/43_j_type.md): its canonical Word, its link, its jump and its fault -/

namespace Sys2Proof.Machine

theorem exec_jalr_of_nonneg {s : State} {a : RegNum} (h : 0 ≤ sint (s.readReg a)) (b : RegNum) :
    exec (.jalr a b) s = .next { s.writeReg b (wordOf s.pc) with pc := sint (s.readReg a) } := by
  rw [exec_jalr, jumpTo_of_nonneg h]

theorem exec_jalr_of_negative {s : State} {a : RegNum} (h : sint (s.readReg a) < 0) (b : RegNum) :
    exec (.jalr a b) s = .next (raise (.negativeAddress (sint (s.readReg a))) (s.writeReg b (wordOf s.pc))) := by
  rw [exec_jalr, jumpTo_of_negative h]

/-- Settles O40: `jalr` is one register write, of the link, and then the checked change of `pc` to the target read
before it. The change of `pc` and the fault each leave the frame of the write as it is. -/
theorem jalrLinksAndJumpsToOldTarget : Obligations.JalrLinksAndJumpsToOldTarget := by
  intro a b s
  have hlink : (s.writeReg b (wordOf s.pc)).readReg b = wordOf s.pc := readReg_writeReg_same s b _
  obtain ⟨hregs, hmem, hcounters, hpc, hrun⟩ := writeReg_frame s b (wordOf s.pc)
  refine ⟨packFields_eq_ofNat 5 a b (low := 0#32) (by decide), fun _ => decode_of_and_decodedBits (i := .jalr a b),
    fun hnonneg => ?_, fun hneg => ?_⟩
  · have hnumber : (((s.writeReg b (wordOf s.pc)).readReg b).toNat : Int) = s.pc % 2 ^ 32 := by
      rw [hlink, toNat_wordOf]
    exact ⟨_, exec_jalr_of_nonneg hnonneg b, hlink, rfl, hnumber, hregs, hmem, hcounters, hrun⟩
  · exact ⟨_, exec_jalr_of_negative hneg b, rfl, hlink, hpc, hregs, hmem, hcounters⟩

end Sys2Proof.Machine

/-! ### The O-type instructions (spec/44_o_type.md): their canonical Words and their whole step -/

namespace Sys2Proof.Machine

/-- R107: the fuse stays silent exactly while the count is below every ceiling there is. -/
theorem budgetReached_eq_false_iff (s : State) :
    s.budgetReached = false ↔ ∀ b, s.instBudget = some b → s.instCount < b := by
  rw [← Bool.not_eq_true, budgetReached_iff]
  push Not
  rfl

section
variable {s : State}

theorem step_eq_of_halt (h : s.runState = .running) (hf : s.InFetchRange)
    (hi : decode (s.memRead s.pc.toNat) = .halt) :
    step s = .next (count { advance s with runState := .halted }) := by
  have hbody : exec (decode (s.memRead s.pc.toNat)) (advance s) = .next { advance s with runState := .halted } := by
    rw [hi, exec_halt]
  rw [step_inRange h hf hbody, finish_of_halted rfl]

theorem step_eq_of_noop (h : s.runState = .running) (hf : s.InFetchRange)
    (hi : decode (s.memRead s.pc.toNat) = .noop) : step s = .next (finish (advance s)) :=
  step_inRange h hf (by rw [hi, exec_noop])

end

/-- Settles O41: `halt` leaves the block halted, so its step ends with the count and no look at the ceiling. -/
theorem haltStopsTheBlock : Obligations.HaltStopsTheBlock :=
  ⟨packFields_eq_ofNat 6 0 0 (low := 0#32) (by decide), fun _ => decode_of_and_decodedBits (i := .halt), exec_halt,
    fun _ hrun h0 h1 hword => step_eq_of_halt hrun ⟨h0, h1⟩ (decode_of_and_decodedBits hword)⟩

/-- Settles O42: a step of `noop` is the advance and what follows every body: the count, and the fuse at the ceiling. -/
theorem noopOnlyAdvances : Obligations.NoopOnlyAdvances := by
  refine ⟨packFields_eq_ofNat 7 0 0 (low := 0#32) (by decide), fun _ => decode_of_and_decodedBits (i := .noop),
    exec_noop, fun s hrun h0 h1 hword => ?_⟩
  have hgo : (advance s).runState = .running := hrun
  have hstep : step s = .next (finish (advance s)) :=
    step_eq_of_noop hrun ⟨h0, h1⟩ (decode_of_and_decodedBits hword)
  refine ⟨fun hbelow => ?_, fun b hb hle => ?_⟩
  · have hsilent : (count (advance s)).budgetReached = false := (budgetReached_eq_false_iff _).mpr hbelow
    rw [hstep, finish_of_budget_not_reached hgo hsilent]
    rfl
  · have hreached : (count (advance s)).budgetReached = true := (budgetReached_iff _).mpr ⟨b, hb, hle⟩
    rw [hstep, finish_of_budget_reached hgo hreached]
    rfl

end Sys2Proof.Machine

/-! ### Tokens as operands (R178, R179, R182): numerals, register operands and packed offsets -/

namespace Sys2Proof.Machine

/-! Decimal digits: `digitsFrom` is Horner's scheme over a token all of whose characters are digits -/

theorem isDecimalDigit_iff (c : Char) : isDecimalDigit c = true ↔ 48 ≤ c.toNat ∧ c.toNat ≤ 57 := by
  rw [isDecimalDigit, Bool.and_eq_true, decide_eq_true_iff, decide_eq_true_iff]

theorem digitsFrom_eq_some_iff (acc n : Nat) (token : Token) :
    digitsFrom acc token = some n ↔
      (∀ c ∈ token, 48 ≤ c.toNat ∧ c.toNat ≤ 57) ∧ token.foldl (fun m c => 10 * m + (c.toNat - 48)) acc = n := by
  induction token generalizing acc with
  | nil => simp [digitsFrom]
  | cons c cs ih =>
    by_cases hc : isDecimalDigit c = true
    · have hdigit := (isDecimalDigit_iff c).mp hc
      simp [digitsFrom, hc, ih, hdigit]
    · have hdigit := mt (isDecimalDigit_iff c).mpr hc
      simp only [digitsFrom, hc, List.forall_mem_cons, hdigit, false_and, reduceCtorEq]
      simp

theorem parseDigits_eq_some_iff (token : Token) (n : Nat) :
    parseDigits token = some n ↔ token ≠ [] ∧ (∀ c ∈ token, 48 ≤ c.toNat ∧ c.toNat ≤ 57) ∧
      token.foldl (fun m c => 10 * m + (c.toNat - 48)) 0 = n := by
  cases token with
  | nil => simp [parseDigits]
  | cons c cs => exact (digitsFrom_eq_some_iff 0 n (c :: cs)).trans (and_iff_right (List.cons_ne_nil c cs)).symm

/-- No sign is a digit. -/
theorem parseDigits_minus_cons (cs : Token) : parseDigits ('-' :: cs) = none := rfl

theorem parseDigits_plus_cons (cs : Token) : parseDigits ('+' :: cs) = none := rfl

/-! Numerals (R178): digits alone, after `+` or after `-` -/

theorem parseNumeral_plus_cons (cs : Token) :
    parseNumeral ('+' :: cs) = (parseDigits cs).map (fun n : Nat => (n : Int)) := rfl

theorem parseNumeral_of_parseDigits {token : Token} {n : Nat} (h : parseDigits token = some n) :
    parseNumeral token = some (n : Int) := by
  cases token with
  | nil => cases h
  | cons c cs =>
    have hminus : c ≠ '-' := by rintro rfl; rw [parseDigits_minus_cons] at h; cases h
    have hplus : c ≠ '+' := by rintro rfl; rw [parseDigits_plus_cons] at h; cases h
    rw [parseNumeral_cons_of_not_sign hminus hplus, h, Option.map_some]

theorem parseNumeral_eq_some_iff (token : Token) (v : Int) :
    parseNumeral token = some v ↔ ∃ digits n, parseDigits digits = some n ∧
      ((token = digits ∨ token = '+' :: digits) ∧ v = (n : Int) ∨ token = '-' :: digits ∧ v = -(n : Int)) := by
  constructor
  · intro h
    cases token with
    | nil => cases h
    | cons c cs =>
      by_cases hminus : c = '-'
      · subst hminus
        obtain ⟨n, hn, rfl⟩ := Option.map_eq_some_iff.mp h
        exact ⟨cs, n, hn, .inr ⟨rfl, rfl⟩⟩
      by_cases hplus : c = '+'
      · subst hplus
        obtain ⟨n, hn, rfl⟩ := Option.map_eq_some_iff.mp h
        exact ⟨cs, n, hn, .inl ⟨.inr rfl, rfl⟩⟩
      rw [parseNumeral_cons_of_not_sign hminus hplus] at h
      obtain ⟨n, hn, rfl⟩ := Option.map_eq_some_iff.mp h
      exact ⟨c :: cs, n, hn, .inl ⟨.inl rfl, rfl⟩⟩
  · rintro ⟨digits, n, hn, ⟨rfl | rfl, rfl⟩ | ⟨rfl, rfl⟩⟩
    · exact parseNumeral_of_parseDigits hn
    · rw [parseNumeral_plus_cons, hn, Option.map_some]
    · rw [parseNumeral_minus_cons, hn, Option.map_some]

/-- Settles O48: each of the three forms of a numeral is read by `parseDigits`, which is Horner's scheme. -/
theorem numericTokensAreSignedDigits : Obligations.NumericTokensAreSignedDigits := by
  intro token v
  rw [parseNumeral_eq_some_iff]
  constructor
  · rintro ⟨digits, n, hn, hform⟩
    obtain ⟨hne, hdigits, rfl⟩ := (parseDigits_eq_some_iff digits n).mp hn
    exact ⟨digits, hne, hdigits, hform⟩
  · rintro ⟨digits, hne, hdigits, hform⟩
    exact ⟨digits, _, (parseDigits_eq_some_iff digits _).mpr ⟨hne, hdigits, rfl⟩, hform⟩

/-! Register operands (R179) -/

theorem parseRegister_eq_ok_iff (token : Token) (r : RegNum) :
    parseRegister token = .ok r ↔ parseDigits token = some r.val := by
  unfold parseRegister
  cases parseDigits token with
  | none => simp
  | some n =>
    by_cases hn : n < 8
    · simp [hn, Fin.ext_iff]
    · simp only [hn, dite_false, reduceCtorEq, Option.some.injEq, false_iff]
      omega

/-- R179: the only error of a register operand. -/
theorem parseRegister_of_not_ok {token : Token} (h : ∀ r, parseRegister token ≠ .ok r) :
    parseRegister token = .error .invalidRegister := by
  unfold parseRegister at h ⊢
  cases hd : parseDigits token with
  | none => rfl
  | some n =>
    by_cases hn : n < 8
    · exact absurd (by simp [hd, hn]) (h ⟨n, hn⟩)
    · simp [hn]

/-- Settles O49: a register operand is what `parseDigits` reads as a number below 8. -/
theorem registerTokensAreDigitsBelowEight : Obligations.RegisterTokensAreDigitsBelowEight :=
  ⟨fun token r => (parseRegister_eq_ok_iff token r).trans (parseDigits_eq_some_iff token r.val),
    fun _ => parseRegister_of_not_ok⟩

/-! Offsets (R182) -/

theorem packOffset_inRange {o : Int} (h0 : -32768 ≤ o) (h1 : o ≤ 32767) : packOffset o = .ok (BitVec.ofInt 16 o) :=
  if_neg (by omega)

theorem packOffset_outOfRange {o : Int} (h : o < -32768 ∨ 32767 < o) : packOffset o = .error .offsetRange :=
  if_pos h

theorem sint16_ofInt {o : Int} (h0 : -32768 ≤ o) (h1 : o ≤ 32767) : sint16 (BitVec.ofInt 16 o) = o := by
  rw [sint16, BitVec.toInt_ofInt]
  exact Int.bmod_eq_of_le (by omega) (by omega)

/-- R182, R78: the sign extension of a packed offset gives the offset back. -/
theorem sint16_of_packOffset {o : Int} {f : Offset} (h : packOffset o = .ok f) : sint16 f = o := by
  by_cases hr : o < -32768 ∨ 32767 < o
  · rw [packOffset_outOfRange hr] at h
    cases h
  · rw [packOffset_inRange (by omega) (by omega)] at h
    cases h
    exact sint16_ofInt (by omega) (by omega)

/-- Settles O50: the low 16 bits are those of the offset, and 16 bits hold the range of the check. -/
theorem offsetPackingRoundTrip : Obligations.OffsetPackingRoundTrip := by
  refine ⟨fun o h0 h1 => ⟨_, packOffset_inRange h0 h1, sint16_ofInt h0 h1, ?_⟩, fun o => packOffset_outOfRange⟩
  rw [← sint16_emod, sint16_ofInt h0 h1]

end Sys2Proof.Machine

/-! ### Pass 1 of the assembler (R172 to R175): the symbol table of a source -/

namespace Sys2Proof.Machine

/-! Names in a symbol table -/

theorem SymbolTable.find_eq_none_iff (t : SymbolTable) (name : Token) :
    t.find name = none ↔ name ∉ t.map Prod.fst := by
  induction t with
  | nil => simp [SymbolTable.find]
  | cons p t ih =>
    by_cases h : p.1 = name
    · simp [SymbolTable.find, h]
    · simp [SymbolTable.find, h, ih, Ne.symm h]

/-- A symbol defined last is found where its name was not defined before. -/
theorem SymbolTable.find_append_singleton (t : SymbolTable) (n name : Token) (a : Nat) :
    SymbolTable.find (t ++ [(n, a)]) name = (t.find name).or (if n = name then some a else none) := by
  induction t with
  | nil => rfl
  | cons p t ih =>
    by_cases h : p.1 = name
    · simp [SymbolTable.find, h]
    · simpa [SymbolTable.find, h] using ih

section
variable {t : SymbolTable} {r : SourceRecord}

theorem defineLabel_of_no_label (h : r.label = []) (i : Nat) : defineLabel t i r = .ok t := if_pos h

theorem defineLabel_of_new (h : r.label ≠ []) (hnew : t.find r.label = none) (i : Nat) :
    defineLabel t i r = .ok (t ++ [(r.label, i)]) := by
  simp [defineLabel, h, hnew]

theorem defineLabel_of_defined (h : r.label ≠ []) {a : Nat} (hold : t.find r.label = some a) (i : Nat) :
    defineLabel t i r = .error .duplicateLabel := by
  simp [defineLabel, h, hold]

end

/-! Pass 1 over records alone: blank lines and lengths are the lines' matter -/

/-- R174: the labels of the records, the first of them at address `i`, defined on top of `t`. Where the lines fit,
`buildSymbols` is this function of the records (`buildSymbols_of_fits`). -/
def defineLabels : SymbolTable → Nat → List SourceRecord → Except AsmError SymbolTable
  | t, _, [] => .ok t
  | t, i, r :: rs => (defineLabel t i r).bind fun t' => defineLabels t' (i + 1) rs

theorem defineLabels_cons_of_ok {t t' : SymbolTable} {i : Nat} {r : SourceRecord} (h : defineLabel t i r = .ok t')
    (rs : List SourceRecord) : defineLabels t i (r :: rs) = defineLabels t' (i + 1) rs := by
  rw [defineLabels, h]
  rfl

theorem defineLabels_cons_of_error {t : SymbolTable} {i : Nat} {r : SourceRecord} {e : AsmError}
    (h : defineLabel t i r = .error e) (rs : List SourceRecord) : defineLabels t i (r :: rs) = .error e := by
  rw [defineLabels, h]
  rfl

theorem buildSymbols_of_fits {maxLine : Nat} {lines : List SourceLine} (h : ∀ l ∈ lines, l.length ≤ maxLine)
    (t : SymbolTable) (i : Nat) : buildSymbols maxLine t i lines = defineLabels t i (recordsOf lines) := by
  induction lines generalizing t i with
  | nil => rfl
  | cons l ls ih =>
    obtain ⟨hl, hls⟩ := List.forall_mem_cons.mp h
    cases hr : l.record with
    | none => simp [buildSymbols, recordsOf, hr, Nat.not_lt.mpr hl, ih hls]
    | some r =>
      cases hd : defineLabel t i r with
      | error e => simp [buildSymbols, recordsOf, hr, Nat.not_lt.mpr hl, hd, defineLabels_cons_of_error hd]
      | ok t' => simp [buildSymbols, recordsOf, hr, Nat.not_lt.mpr hl, hd, defineLabels_cons_of_ok hd, ih hls]

/-- R172: pass 1 accepts no over-long line. -/
theorem fits_of_buildSymbols {maxLine : Nat} {lines : List SourceLine} {t t' : SymbolTable} {i : Nat}
    (h : buildSymbols maxLine t i lines = .ok t') : ∀ l ∈ lines, l.length ≤ maxLine := by
  induction lines generalizing t i with
  | nil => simp
  | cons l ls ih =>
    by_cases hl : maxLine < l.length
    · simp [buildSymbols, hl] at h
    refine List.forall_mem_cons.mpr ⟨Nat.not_lt.mp hl, ?_⟩
    cases hr : l.record with
    | none => exact ih (by simpa [buildSymbols, hl, hr] using h)
    | some r =>
      cases hd : defineLabel t i r with
      | error e => simp [buildSymbols, hl, hr, hd] at h
      | ok t₁ => exact ih (t := t₁) (i := i + 1) (by simpa [buildSymbols, hl, hr, hd] using h)

/-! What pass 1 defines (R174, R175) -/

/-- The one symbol a record adds. -/
theorem find_defineLabel {t t' : SymbolTable} {i : Nat} {r : SourceRecord} (h : defineLabel t i r = .ok t')
    (name : Token) (k : Nat) :
    t'.find name = some k ↔ t.find name = some k ∨ name ≠ [] ∧ r.label = name ∧ k = i := by
  by_cases hl : r.label = []
  · rw [defineLabel_of_no_label hl] at h
    cases h
    refine ⟨.inl, ?_⟩
    rintro (hk | ⟨hne, rfl, -⟩)
    · exact hk
    · exact absurd hl hne
  · cases hf : t.find r.label with
    | some a =>
      rw [defineLabel_of_defined hl hf] at h
      cases h
    | none =>
      rw [defineLabel_of_new hl hf] at h
      cases h
      rw [SymbolTable.find_append_singleton]
      by_cases hname : r.label = name
      · subst hname
        simp [hf, hl, eq_comm]
      · simp [hname]

/-- The address of a name among records from address `i` on: that of the first record, or one further on. -/
theorem exists_label_cons (r : SourceRecord) (rs : List SourceRecord) (i k : Nat) (name : Token) :
    (∃ j, k = i + j ∧ ((r :: rs)[j]?).map SourceRecord.label = some name) ↔
      (r.label = name ∧ k = i) ∨ ∃ j, k = i + 1 + j ∧ (rs[j]?).map SourceRecord.label = some name := by
  constructor
  · rintro ⟨j, hk, hj⟩
    cases j with
    | zero => exact .inl ⟨by simpa using hj, hk⟩
    | succ j => exact .inr ⟨j, by omega, by simpa using hj⟩
  · rintro (⟨hr, hk⟩ | ⟨j, hk, hj⟩)
    · exact ⟨0, hk, by simpa using hr⟩
    · exact ⟨j + 1, by omega, by simpa using hj⟩

/-- After pass 1 a name is bound to what it was bound to before, or to the address of the record it labels. -/
theorem find_defineLabels {rs : List SourceRecord} {t t' : SymbolTable} {i : Nat} (h : defineLabels t i rs = .ok t')
    (name : Token) (k : Nat) :
    t'.find name = some k ↔
      t.find name = some k ∨ name ≠ [] ∧ ∃ j, k = i + j ∧ (rs[j]?).map SourceRecord.label = some name := by
  induction rs generalizing t i with
  | nil =>
    cases h
    simp
  | cons r rs ih =>
    cases hd : defineLabel t i r with
    | error e =>
      rw [defineLabels_cons_of_error hd] at h
      cases h
    | ok t₁ =>
      rw [defineLabels_cons_of_ok hd] at h
      rw [ih h, find_defineLabel hd, exists_label_cons, or_assoc, ← and_or_left]

theorem resolve_eq_ok_iff (t : SymbolTable) (name : Token) (k : Nat) :
    resolve t name = .ok k ↔ t.find name = some k := by
  unfold resolve
  cases t.find name <;> simp

theorem resolve_of_not_ok {t : SymbolTable} {name : Token} (h : ∀ k, resolve t name ≠ .ok k) :
    resolve t name = .error .undefinedLabel := by
  cases hf : t.find name with
  | none => simp [resolve, hf]
  | some a => exact absurd ((resolve_eq_ok_iff t name a).mpr hf) (h a)

/-- R175: with the table of pass 1 a name resolves exactly to the address of the record it labels. -/
theorem resolve_of_buildSymbols {maxLine : Nat} {lines : List SourceLine} {t : SymbolTable}
    (h : buildSymbols maxLine [] 0 lines = .ok t) (name : Token) (k : Nat) :
    resolve t name = .ok k ↔ name ≠ [] ∧ ((recordsOf lines)[k]?).map SourceRecord.label = some name := by
  rw [buildSymbols_of_fits (fits_of_buildSymbols h)] at h
  rw [resolve_eq_ok_iff, find_defineLabels h]
  simp [SymbolTable.find]

/-- Settles O51, by `resolve_of_buildSymbols`. -/
theorem symbolTableBindsLabelsToAddresses : Obligations.SymbolTableBindsLabelsToAddresses :=
  fun _ _ _ h => ⟨resolve_of_buildSymbols h, fun _ => resolve_of_not_ok⟩

/-! When pass 1 fails (R174) -/

/-- The non-empty labels of the records, in order. -/
def labelsOf (rs : List SourceRecord) : List Token := (rs.map SourceRecord.label).filter (fun n => n != [])

theorem labelsOf_cons_of_no_label {r : SourceRecord} (h : r.label = []) (rs : List SourceRecord) :
    labelsOf (r :: rs) = labelsOf rs := by
  simp [labelsOf, h]

theorem labelsOf_cons_of_label {r : SourceRecord} (h : r.label ≠ []) (rs : List SourceRecord) :
    labelsOf (r :: rs) = r.label :: labelsOf rs := by
  simp [labelsOf, h]

/-- From a table of distinct names, pass 1 goes through exactly where those names and the labels are distinct together,
and its one error is the second definition of a name. -/
theorem defineLabels_cases (rs : List SourceRecord) {t : SymbolTable} (i : Nat) (ht : (t.map Prod.fst).Nodup) :
    (t.map Prod.fst ++ labelsOf rs).Nodup ∧ (∃ t', defineLabels t i rs = .ok t') ∨
      ¬ (t.map Prod.fst ++ labelsOf rs).Nodup ∧ defineLabels t i rs = .error .duplicateLabel := by
  induction rs generalizing t i with
  | nil => exact .inl ⟨by simpa [labelsOf] using ht, t, rfl⟩
  | cons r rs ih =>
    by_cases hl : r.label = []
    · rw [labelsOf_cons_of_no_label hl, defineLabels_cons_of_ok (defineLabel_of_no_label hl i)]
      exact ih (i + 1) ht
    rw [labelsOf_cons_of_label hl]
    cases hf : t.find r.label with
    | some a =>
      have hmem : r.label ∈ t.map Prod.fst := by
        by_contra hnot
        rw [(SymbolTable.find_eq_none_iff t r.label).mpr hnot] at hf
        cases hf
      refine .inr ⟨fun hnodup => ?_, defineLabels_cons_of_error (defineLabel_of_defined hl hf i) rs⟩
      exact List.disjoint_of_nodup_append hnodup hmem List.mem_cons_self
    | none =>
      have hnew : r.label ∉ t.map Prod.fst := (SymbolTable.find_eq_none_iff t r.label).mp hf
      have hnames : (t ++ [(r.label, i)]).map Prod.fst = t.map Prod.fst ++ [r.label] := by simp
      have ht' : ((t ++ [(r.label, i)]).map Prod.fst).Nodup := by
        rw [hnames, ← List.concat_eq_append]
        exact ht.concat hnew
      have hih := ih (i + 1) ht'
      rwa [hnames, List.append_assoc, List.singleton_append,
        ← defineLabels_cons_of_ok (defineLabel_of_new hl hf i)] at hih

/-- Settles O52: where the lines fit, pass 1 is `defineLabels`, which fails on a second definition only. -/
theorem duplicateLabelsAreRefused : Obligations.DuplicateLabelsAreRefused := by
  intro maxLine lines hfits
  rw [buildSymbols_of_fits hfits]
  exact defineLabels_cases (recordsOf lines) (t := []) 0 List.nodup_nil

end Sys2Proof.Machine

/-! ### Pass 2 of the assembler (R176 to R187): the Word or the error of one record -/

namespace Sys2Proof.Machine

/-! The opcode token (R176) -/

/-- R176: the token that names an opcode or the directive. -/
def OpcodeToken.text : OpcodeToken → Token
  | .add => "add".toList
  | .nor => "nor".toList
  | .lw => "lw".toList
  | .sw => "sw".toList
  | .beq => "beq".toList
  | .jalr => "jalr".toList
  | .halt => "halt".toList
  | .noop => "noop".toList
  | .fill => ".fill".toList

theorem text_of_opcodeToken {token : Token} {op : OpcodeToken} (h : opcodeToken token = some op) : token = op.text := by
  unfold opcodeToken at h
  split_ifs at h <;> cases h <;> assumption

theorem opcodeToken_of_unsupported {token : Token}
    (h : token ∉ ["add".toList, "nor".toList, "lw".toList, "sw".toList, "beq".toList, "jalr".toList, "halt".toList,
      "noop".toList, ".fill".toList]) : opcodeToken token = none := by
  cases hop : opcodeToken token with
  | none => rfl
  | some op =>
    rw [text_of_opcodeToken hop] at h
    exact absurd (by cases op <;> decide) h

/-! The register operands, checked left to right (R179, R181, R187) -/

theorem parseDestination_eq_ok_iff (token : Token) (d : RegNum) :
    parseDestination token = .ok d ↔ parseRegister token = .ok d ∧ d ≠ 0 := by
  unfold parseDestination
  cases parseRegister token with
  | error e => simp
  | ok d' =>
    by_cases hd : d' = 0 <;> simp +contextual [hd, eq_comm]

/-- R181: the only error of a destination, a destination of 0 included. -/
theorem parseDestination_of_not_ok {token : Token} (h : ∀ d, parseDestination token ≠ .ok d) :
    parseDestination token = .error .invalidRegister := by
  unfold parseDestination at h ⊢
  cases hd : parseRegister token with
  | error e => rw [← hd, parseRegister_of_not_ok (by simp [hd])]
  | ok d =>
    by_cases h0 : d = 0
    · simp [h0]
    · exact absurd (by simp [hd, h0]) (h d)

section
variable {r : SourceRecord} {a b : RegNum}

theorem twoRegisters_of_ok (ha : parseRegister r.arg0 = .ok a) (hb : parseRegister r.arg1 = .ok b) :
    twoRegisters r = .ok (a, b) := by
  rw [twoRegisters, ha, hb]
  rfl

theorem twoRegisters_of_bad (h : (∀ a, parseRegister r.arg0 ≠ .ok a) ∨ (∀ b, parseRegister r.arg1 ≠ .ok b)) :
    twoRegisters r = .error .invalidRegister := by
  rw [twoRegisters]
  by_cases h0 : ∀ a, parseRegister r.arg0 ≠ .ok a
  · rw [parseRegister_of_not_ok h0]
    rfl
  · obtain ⟨a, ha⟩ := not_forall_not.mp h0
    rw [ha, parseRegister_of_not_ok (h.resolve_left h0)]
    rfl

end

/-- R187: an R-type record's operands are its two source registers and then the destination. -/
theorem rTypeOperands_eq (r : SourceRecord) :
    rTypeOperands r =
      (twoRegisters r).bind fun regs => (parseDestination r.arg2).map fun d => (regs.1, regs.2, d) := by
  rw [rTypeOperands, twoRegisters]
  cases parseRegister r.arg0 <;> cases parseRegister r.arg1 <;> cases parseDestination r.arg2 <;> rfl

/-! The three families of records with operands: R-type, I-type and J-type (R181 to R183) -/

/-- R181: the Word of an R-type record, for the instruction `op` of its opcode
(`encodeRecord_add`, `encodeRecord_nor`). -/
def rTypeWord (op : RegNum → RegNum → RegNum → Instr) (r : SourceRecord) : Except AsmError Word :=
  (twoRegisters r).bind fun regs => (parseDestination r.arg2).map fun d => encode (op regs.1 regs.2 d)

/-- R182: the Word of an I-type record, for the instruction `op` of its opcode and what its offset token gives
(`encodeRecord_lw`, `encodeRecord_sw`, `encodeRecord_beq`). -/
def iTypeWord (op : RegNum → RegNum → Offset → Instr) (r : SourceRecord) (offset : Except AsmError Offset) :
    Except AsmError Word :=
  (twoRegisters r).bind fun regs => offset.map fun o => encode (op regs.1 regs.2 o)

section
variable (t : SymbolTable) (i : Nat) {r : SourceRecord}

theorem encodeRecord_add (h : r.opcode = "add".toList) : encodeRecord t i r = rTypeWord .add r := by
  rw [encodeRecord, h, rTypeOperands_eq, rTypeWord]
  cases twoRegisters r <;> cases parseDestination r.arg2 <;> rfl

theorem encodeRecord_nor (h : r.opcode = "nor".toList) : encodeRecord t i r = rTypeWord .nor r := by
  rw [encodeRecord, h, rTypeOperands_eq, rTypeWord]
  cases twoRegisters r <;> cases parseDestination r.arg2 <;> rfl

theorem encodeRecord_lw (h : r.opcode = "lw".toList) :
    encodeRecord t i r = iTypeWord .lw r (absoluteOffset t r.arg2) := by
  rw [encodeRecord, h]
  rfl

theorem encodeRecord_sw (h : r.opcode = "sw".toList) :
    encodeRecord t i r = iTypeWord .sw r (absoluteOffset t r.arg2) := by
  rw [encodeRecord, h]
  rfl

theorem encodeRecord_beq (h : r.opcode = "beq".toList) :
    encodeRecord t i r = iTypeWord .beq r (relativeOffset t i r.arg2) := by
  rw [encodeRecord, h]
  rfl

theorem encodeRecord_jalr (h : r.opcode = "jalr".toList) :
    encodeRecord t i r = (twoRegisters r).map fun regs => encode (.jalr regs.1 regs.2) := by
  rw [encodeRecord, h]
  rfl

theorem encodeRecord_halt (h : r.opcode = "halt".toList) : encodeRecord t i r = .ok (encode .halt) := by
  rw [encodeRecord, h]
  rfl

theorem encodeRecord_noop (h : r.opcode = "noop".toList) : encodeRecord t i r = .ok (encode .noop) := by
  rw [encodeRecord, h]
  rfl

theorem encodeRecord_fill (h : r.opcode = ".fill".toList) : encodeRecord t i r = fillWord t r.arg0 := by
  rw [encodeRecord, h]
  rfl

end

/-! R-type records: the destination decides (R181) -/

section
variable {r : SourceRecord} {a b d : RegNum}

theorem rTypeWord_of_ok (op : RegNum → RegNum → RegNum → Instr) (ha : parseRegister r.arg0 = .ok a)
    (hb : parseRegister r.arg1 = .ok b) (hd : parseRegister r.arg2 = .ok d) (hne : d ≠ 0) :
    rTypeWord op r = .ok (encode (op a b d)) := by
  rw [rTypeWord, twoRegisters_of_ok ha hb, (parseDestination_eq_ok_iff r.arg2 d).mpr ⟨hd, hne⟩]
  rfl

theorem rTypeWord_of_bad_register (op : RegNum → RegNum → RegNum → Instr)
    (h : (∀ a, parseRegister r.arg0 ≠ .ok a) ∨ (∀ b, parseRegister r.arg1 ≠ .ok b)) :
    rTypeWord op r = .error .invalidRegister := by
  rw [rTypeWord, twoRegisters_of_bad h]
  rfl

/-- A destination that is no register, or register 0, is the record's error whatever the two sources are. -/
theorem rTypeWord_of_bad_destination (op : RegNum → RegNum → RegNum → Instr)
    (h : ∀ d, parseDestination r.arg2 ≠ .ok d) : rTypeWord op r = .error .invalidRegister := by
  by_cases hregs : (∀ a, parseRegister r.arg0 ≠ .ok a) ∨ (∀ b, parseRegister r.arg1 ≠ .ok b)
  · exact rTypeWord_of_bad_register op hregs
  · push Not at hregs
    obtain ⟨⟨a, ha⟩, b, hb⟩ := hregs
    rw [rTypeWord, twoRegisters_of_ok ha hb, parseDestination_of_not_ok h]
    rfl

end

/-- Settles O53: both opcodes of the family give `rTypeWord`, whose error is that of the destination. -/
theorem rTypeRecordsRefuseDestinationZero : Obligations.RTypeRecordsRefuseDestinationZero := by
  intro t i r a b d ha hb hd
  refine ⟨fun hop hne => ?_, fun hop hne => ?_, fun hop hzero => ?_⟩
  · rw [encodeRecord_add t i hop, rTypeWord_of_ok .add ha hb hd hne]
    exact congrArg Except.ok (packFields_reg_eq_ofNat 0 a b d)
  · rw [encodeRecord_nor t i hop, rTypeWord_of_ok .nor ha hb hd hne]
    exact congrArg Except.ok (packFields_reg_eq_ofNat 1 a b d)
  · have hbad : ∀ d', parseDestination r.arg2 ≠ .ok d' := by
      intro d' hd'
      obtain ⟨hreg, hne⟩ := (parseDestination_eq_ok_iff r.arg2 d').mp hd'
      rw [hd] at hreg
      cases hreg
      exact hne hzero
    rcases hop with hop | hop
    · rw [encodeRecord_add t i hop, rTypeWord_of_bad_destination .add hbad]
    · rw [encodeRecord_nor t i hop, rTypeWord_of_bad_destination .nor hbad]

/-! Offset operands (R182): a number, or a label's address -/

section
variable {t : SymbolTable} {token : Token} {o : Int}

theorem absoluteOffset_eq_packOffset
    (h : parseNumeral token = some o ∨ parseNumeral token = none ∧ ∃ k, resolve t token = .ok k ∧ o = (k : Int)) :
    absoluteOffset t token = packOffset o := by
  rcases h with hnum | ⟨hnum, k, hk, rfl⟩
  · simp [absoluteOffset, hnum]
  · simp [absoluteOffset, hnum, hk]

theorem relativeOffset_eq_packOffset {i : Nat}
    (h : parseNumeral token = some o ∨
      parseNumeral token = none ∧ ∃ k, resolve t token = .ok k ∧ o = (k : Int) - i - 1) :
    relativeOffset t i token = packOffset o := by
  rcases h with hnum | ⟨hnum, k, hk, rfl⟩
  · simp [relativeOffset, hnum]
  · simp [relativeOffset, hnum, hk]

theorem absoluteOffset_of_undefined (hnum : parseNumeral token = none) (h : ∀ k, resolve t token ≠ .ok k) :
    absoluteOffset t token = .error .undefinedLabel := by
  simp [absoluteOffset, hnum, resolve_of_not_ok h]

theorem relativeOffset_of_undefined (hnum : parseNumeral token = none) (h : ∀ k, resolve t token ≠ .ok k) (i : Nat) :
    relativeOffset t i token = .error .undefinedLabel := by
  simp [relativeOffset, hnum, resolve_of_not_ok h]

end

/-! I-type, J-type and O-type records (R182 to R184) -/

section
variable {r : SourceRecord} {a b : RegNum} {op : RegNum → RegNum → Offset → Instr}

theorem iTypeWord_of_ok (ha : parseRegister r.arg0 = .ok a) (hb : parseRegister r.arg1 = .ok b)
    (offset : Except AsmError Offset) : iTypeWord op r offset = offset.map fun o => encode (op a b o) := by
  rw [iTypeWord, twoRegisters_of_ok ha hb]
  rfl

theorem iTypeWord_of_bad_register (h : (∀ a, parseRegister r.arg0 ≠ .ok a) ∨ (∀ b, parseRegister r.arg1 ≠ .ok b))
    (offset : Except AsmError Offset) : iTypeWord op r offset = .error .invalidRegister := by
  rw [iTypeWord, twoRegisters_of_bad h]
  rfl

/-- R84, R182: the low 16 bits of an I-type Word are the offset modulo 2^16. -/
theorem iTypeWord_of_inRange {n : Fin 8} (hop : ∀ a b f, encode (op a b f) = packFields n a b (f.setWidth 32))
    (ha : parseRegister r.arg0 = .ok a) (hb : parseRegister r.arg1 = .ok b) {o : Int} (h0 : -32768 ≤ o)
    (h1 : o ≤ 32767) :
    iTypeWord op r (packOffset o) =
      .ok (BitVec.ofNat 32 (n.val * 2 ^ 22 + a.val * 2 ^ 19 + b.val * 2 ^ 16 + (o % 2 ^ 16).toNat)) := by
  have hlow : (BitVec.ofInt 16 o).toNat = (o % 2 ^ 16).toNat := BitVec.toNat_ofInt o
  rw [iTypeWord_of_ok ha hb, packOffset_inRange h0 h1, Except.map, hop, packFields_offset_eq_ofNat, hlow]

theorem iTypeWord_of_bad_offset (ha : parseRegister r.arg0 = .ok a) (hb : parseRegister r.arg1 = .ok b)
    {offset : Except AsmError Offset} {e : AsmError} (h : offset = .error e) : iTypeWord op r offset = .error e := by
  rw [iTypeWord_of_ok ha hb, h]
  rfl

end

/-- Settles O54: the three I-type opcodes give `iTypeWord`, with the absolute or the relative offset of the token. -/
theorem iTypeAndJTypeRecordsGiveTheirWords : Obligations.ITypeAndJTypeRecordsGiveTheirWords := by
  refine ⟨fun t i r a b ha hb => ⟨fun o hval => ?_, fun o hval hop => ?_, fun hop hnum hundef => ?_, fun hop => ?_⟩,
    fun t i r => ⟨encodeRecord_halt t i, encodeRecord_noop t i⟩⟩
  · have hoff : absoluteOffset t r.arg2 = packOffset o := absoluteOffset_eq_packOffset hval
    refine ⟨fun hop h0 h1 => ?_, fun hop h0 h1 => ?_, fun hop hout => ?_⟩
    · rw [encodeRecord_lw t i hop, hoff]
      exact iTypeWord_of_inRange (n := 2) (fun _ _ _ => rfl) ha hb h0 h1
    · rw [encodeRecord_sw t i hop, hoff]
      exact iTypeWord_of_inRange (n := 3) (fun _ _ _ => rfl) ha hb h0 h1
    · have herr : absoluteOffset t r.arg2 = .error .offsetRange := hoff.trans (packOffset_outOfRange hout)
      rcases hop with hop | hop
      · rw [encodeRecord_lw t i hop, iTypeWord_of_bad_offset ha hb herr]
      · rw [encodeRecord_sw t i hop, iTypeWord_of_bad_offset ha hb herr]
  · rw [encodeRecord_beq t i hop, relativeOffset_eq_packOffset hval]
    exact ⟨iTypeWord_of_inRange (n := 4) (fun _ _ _ => rfl) ha hb,
      fun hout => iTypeWord_of_bad_offset ha hb (packOffset_outOfRange hout)⟩
  · rcases hop with hop | hop | hop
    · rw [encodeRecord_lw t i hop, iTypeWord_of_bad_offset ha hb (absoluteOffset_of_undefined hnum hundef)]
    · rw [encodeRecord_sw t i hop, iTypeWord_of_bad_offset ha hb (absoluteOffset_of_undefined hnum hundef)]
    · rw [encodeRecord_beq t i hop, iTypeWord_of_bad_offset ha hb (relativeOffset_of_undefined hnum hundef i)]
  · rw [encodeRecord_jalr t i hop, twoRegisters_of_ok ha hb]
    exact congrArg Except.ok (packFields_eq_ofNat 5 a b (low := 0#32) (by decide))

/-- Settles O55: in each family the registers are read before anything else, and each bad one gives the same error. -/
theorem recordChecksGoLeftToRight : Obligations.RecordChecksGoLeftToRight := by
  intro t i r
  refine ⟨fun hop => ?_, fun hop hbad => ?_, fun hop hbad => ?_⟩
  · rw [encodeRecord, opcodeToken_of_unsupported hop]
  · simp only [List.mem_cons, List.not_mem_nil, or_false] at hop
    rcases hop with hop | hop | hop | hop
    · rw [encodeRecord_lw t i hop, iTypeWord_of_bad_register hbad]
    · rw [encodeRecord_sw t i hop, iTypeWord_of_bad_register hbad]
    · rw [encodeRecord_beq t i hop, iTypeWord_of_bad_register hbad]
    · rw [encodeRecord_jalr t i hop, twoRegisters_of_bad hbad]
      rfl
  · have herr : ∀ op, rTypeWord op r = .error .invalidRegister := fun op => by
      rcases hbad with h | h | h
      · exact rTypeWord_of_bad_register op (.inl h)
      · exact rTypeWord_of_bad_register op (.inr h)
      · exact rTypeWord_of_bad_destination op fun d hd => h d ((parseDestination_eq_ok_iff r.arg2 d).mp hd).1
    simp only [List.mem_cons, List.not_mem_nil, or_false] at hop
    rcases hop with hop | hop
    · rw [encodeRecord_add t i hop, herr]
    · rw [encodeRecord_nor t i hop, herr]

/-! The directive `.fill` (R185) -/

section
variable {t : SymbolTable} {token : Token}

theorem fillWord_of_number {v : Int} (h : parseNumeral token = some v) (hfits : fitsSigned32 v = true) :
    fillWord t token = .ok (wordOf v) := by
  simp [fillWord, h, hfits]

theorem fillWord_of_bad_number {v : Int} (h : parseNumeral token = some v) (hfits : ¬ fitsSigned32 v = true) :
    fillWord t token = .error .fillRange := by
  simp [fillWord, h, hfits]

theorem fillWord_of_label {k : Nat} (hnum : parseNumeral token = none) (h : resolve t token = .ok k) :
    fillWord t token = .ok (wordOf k) := by
  simp [fillWord, hnum, h]

theorem fillWord_of_undefined (hnum : parseNumeral token = none) (h : ∀ k, resolve t token ≠ .ok k) :
    fillWord t token = .error .undefinedLabel := by
  simp [fillWord, hnum, resolve_of_not_ok h]

end

/-- Settles O56: the four cases of `fillWord`. -/
theorem fillRecordsAreVerbatim : Obligations.FillRecordsAreVerbatim := by
  intro t i r hop
  rw [encodeRecord_fill t i hop]
  refine ⟨fun v hv h0 h1 => fillWord_of_number hv ((fitsSigned32_iff v).mpr ⟨h0, by omega⟩), fun v hv hout => ?_,
    fun k => fillWord_of_label, fillWord_of_undefined⟩
  refine fillWord_of_bad_number hv fun hfits => ?_
  have hrange := (fitsSigned32_iff v).mp hfits
  omega

end Sys2Proof.Machine

/-! ### A whole assembly (R173, R188, R190): one Word per record, label references, and the output as an image -/

namespace Sys2Proof.Machine

/-! Both passes together -/

theorem assemble_ok {maxLine : Nat} {lines : List SourceLine} {words : List Word}
    (h : assemble maxLine lines = .ok words) :
    ∃ t, buildSymbols maxLine [] 0 lines = .ok t ∧ encodeRecords t 0 (recordsOf lines) = .ok words := by
  unfold assemble at h
  cases ht : buildSymbols maxLine [] 0 lines with
  | error e => rw [ht] at h; cases h
  | ok t => rw [ht] at h; exact ⟨t, rfl, h⟩

theorem encodeRecords_cons_ok {t : SymbolTable} {i : Nat} {r : SourceRecord} {rs : List SourceRecord}
    {words : List Word} (h : encodeRecords t i (r :: rs) = .ok words) :
    ∃ w ws, words = w :: ws ∧ encodeRecord t i r = .ok w ∧ encodeRecords t (i + 1) rs = .ok ws := by
  unfold encodeRecords at h
  cases hw : encodeRecord t i r with
  | error e => rw [hw] at h; cases h
  | ok w =>
    cases hws : encodeRecords t (i + 1) rs with
    | error e => rw [hw, hws] at h; cases h
    | ok ws => rw [hw, hws] at h; cases h; exact ⟨w, ws, rfl, rfl, rfl⟩

theorem length_encodeRecords {t : SymbolTable} {i : Nat} {rs : List SourceRecord} {words : List Word}
    (h : encodeRecords t i rs = .ok words) : words.length = rs.length := by
  induction rs generalizing i words with
  | nil => cases h; rfl
  | cons r rs ih =>
    obtain ⟨w, ws, rfl, -, hws⟩ := encodeRecords_cons_ok h
    rw [List.length_cons, List.length_cons, ih hws]

theorem encodeRecord_of_encodeRecords {t : SymbolTable} {i : Nat} {rs : List SourceRecord} {words : List Word}
    (h : encodeRecords t i rs = .ok words) {j : Nat} {r : SourceRecord} {w : Word} (hr : rs[j]? = some r)
    (hw : words[j]? = some w) : encodeRecord t (i + j) r = .ok w := by
  induction rs generalizing i j words with
  | nil => cases hr
  | cons r' rs ih =>
    obtain ⟨w', ws, rfl, hhead, htail⟩ := encodeRecords_cons_ok h
    cases j with
    | zero =>
      cases hr
      cases hw
      exact hhead
    | succ j =>
      rw [show i + (j + 1) = i + 1 + j by omega]
      exact ih htail hr hw

theorem outputLines_eq_map (words : List Word) : outputLines words = words.map fun w => renderDecimal (sint w) := by
  induction words with
  | nil => rfl
  | cons w ws ih => rw [outputLines, ih, List.map_cons]

/-- R190 (a): what an assembly says of its records, with the table of pass 1. -/
theorem encodeRecord_of_assemble {maxLine : Nat} {lines : List SourceLine} {words : List Word}
    (h : assemble maxLine lines = .ok words) :
    words.length = (recordsOf lines).length ∧ ∃ t, buildSymbols maxLine [] 0 lines = .ok t ∧
      ∀ (i : Nat) (r : SourceRecord) (w : Word), (recordsOf lines)[i]? = some r → words[i]? = some w →
        encodeRecord t i r = .ok w := by
  obtain ⟨t, ht, hwords⟩ := assemble_ok h
  refine ⟨length_encodeRecords hwords, t, ht, fun i r w hr hw => ?_⟩
  rw [← Nat.zero_add i]
  exact encodeRecord_of_encodeRecords hwords hr hw

/-- Settles O57: pass 2 goes over the records and writes one Word, and so one line, for each. -/
theorem assemblerGivesOneWordPerRecord : Obligations.AssemblerGivesOneWordPerRecord := by
  intro maxLine lines words h
  obtain ⟨hlen, htable⟩ := encodeRecord_of_assemble h
  refine ⟨hlen, ?_, htable⟩
  rw [outputLines_eq_map, List.length_map, hlen]

/-! What an assembled Word was made of -/

theorem exists_encode_of_rTypeWord {op : RegNum → RegNum → RegNum → Instr} {r : SourceRecord} {w : Word}
    (h : rTypeWord op r = .ok w) : ∃ a b d, d ≠ 0 ∧ w = encode (op a b d) := by
  unfold rTypeWord at h
  cases hregs : twoRegisters r with
  | error e => rw [hregs] at h; cases h
  | ok regs =>
    cases hd : parseDestination r.arg2 with
    | error e => rw [hregs, hd] at h; cases h
    | ok d =>
      rw [hregs, hd] at h
      cases h
      exact ⟨regs.1, regs.2, d, ((parseDestination_eq_ok_iff r.arg2 d).mp hd).2, rfl⟩

theorem exists_encode_of_iTypeWord {op : RegNum → RegNum → Offset → Instr} {r : SourceRecord}
    {offset : Except AsmError Offset} {w : Word} (h : iTypeWord op r offset = .ok w) :
    ∃ a b o, offset = .ok o ∧ w = encode (op a b o) := by
  unfold iTypeWord at h
  cases hregs : twoRegisters r with
  | error e => rw [hregs] at h; cases h
  | ok regs =>
    cases offset with
    | error e => rw [hregs] at h; cases h
    | ok o =>
      rw [hregs] at h
      cases h
      exact ⟨regs.1, regs.2, o, rfl, rfl⟩

/-- R181 to R184: every Word but that of a `.fill` is the canonical Word of a well-formed instruction. -/
theorem exists_encode_of_encodeRecord {t : SymbolTable} {i : Nat} {r : SourceRecord} {w : Word}
    (h : encodeRecord t i r = .ok w) (hfill : r.opcode ≠ ".fill".toList) : ∃ ins : Instr, ins.wellFormed = true ∧ w = encode ins := by
  cases hop : opcodeToken r.opcode with
  | none => rw [encodeRecord, hop] at h; cases h
  | some op =>
    have htext : r.opcode = op.text := text_of_opcodeToken hop
    cases op with
    | add =>
      rw [encodeRecord_add t i htext] at h
      obtain ⟨a, b, d, hd, rfl⟩ := exists_encode_of_rTypeWord h
      exact ⟨.add a b d, bne_iff_ne.mpr hd, rfl⟩
    | nor =>
      rw [encodeRecord_nor t i htext] at h
      obtain ⟨a, b, d, hd, rfl⟩ := exists_encode_of_rTypeWord h
      exact ⟨.nor a b d, bne_iff_ne.mpr hd, rfl⟩
    | lw =>
      rw [encodeRecord_lw t i htext] at h
      obtain ⟨a, b, o, -, rfl⟩ := exists_encode_of_iTypeWord h
      exact ⟨_, rfl, rfl⟩
    | sw =>
      rw [encodeRecord_sw t i htext] at h
      obtain ⟨a, b, o, -, rfl⟩ := exists_encode_of_iTypeWord h
      exact ⟨_, rfl, rfl⟩
    | beq =>
      rw [encodeRecord_beq t i htext] at h
      obtain ⟨a, b, o, -, rfl⟩ := exists_encode_of_iTypeWord h
      exact ⟨_, rfl, rfl⟩
    | jalr =>
      rw [encodeRecord_jalr t i htext] at h
      cases hregs : twoRegisters r with
      | error e => rw [hregs] at h; cases h
      | ok regs => rw [hregs] at h; cases h; exact ⟨_, rfl, rfl⟩
    | halt =>
      rw [encodeRecord_halt t i htext] at h
      cases h
      exact ⟨_, rfl, rfl⟩
    | noop =>
      rw [encodeRecord_noop t i htext] at h
      cases h
      exact ⟨_, rfl, rfl⟩
    | fill => exact absurd htext hfill

/-- Settles O59: decoding inverts encoding, so the canonical Word is that of what it decodes to. -/
theorem assembledInstructionsAreCanonical : Obligations.AssembledInstructionsAreCanonical := by
  intro t i r w h hfill
  obtain ⟨ins, hwf, rfl⟩ := exists_encode_of_encodeRecord h hfill
  rw [decode_encode]
  exact ⟨hwf, rfl⟩

/-! References to labels (R190) -/

section
variable {t : SymbolTable} {token : Token} {k : Nat} {o : Offset}

theorem sint16_of_absoluteOffset (hnum : parseNumeral token = none) (hk : resolve t token = .ok k)
    (h : absoluteOffset t token = .ok o) : sint16 o = k := by
  rw [absoluteOffset_eq_packOffset (.inr ⟨hnum, k, hk, rfl⟩)] at h
  exact sint16_of_packOffset h

theorem sint16_of_relativeOffset {i : Nat} (hnum : parseNumeral token = none) (hk : resolve t token = .ok k)
    (h : relativeOffset t i token = .ok o) : sint16 o = (k : Int) - i - 1 := by
  rw [relativeOffset_eq_packOffset (.inr ⟨hnum, k, hk, rfl⟩)] at h
  exact sint16_of_packOffset h

end

/-- Settles O58: pass 1 resolves the label to `k`, and the packed offset keeps its value; a taken `beq` adds it to the
address after its own, which the relative offset has subtracted. -/
theorem labelReferencesReachTheirRecord : Obligations.LabelReferencesReachTheirRecord := by
  intro maxLine lines words i k r target w h hr hw htarget hne hnum
  obtain ⟨-, t, ht, hrecords⟩ := encodeRecord_of_assemble h
  have hword : encodeRecord t i r = .ok w := hrecords i r w hr hw
  have hk : resolve t target.label = .ok k :=
    (resolve_of_buildSymbols ht target.label k).mpr ⟨hne, by rw [htarget, Option.map_some]⟩
  refine ⟨fun hop harg => ?_, fun hop harg => ?_, fun hop harg => ?_, fun hop harg => ?_⟩
  · rw [encodeRecord_fill t i hop, harg, fillWord_of_label hnum hk] at hword
    cases hword
    rfl
  · rw [encodeRecord_lw t i hop, harg] at hword
    obtain ⟨a, b, o, ho, rfl⟩ := exists_encode_of_iTypeWord hword
    exact ⟨a, b, o, decode_encode _, sint16_of_absoluteOffset hnum hk ho⟩
  · rw [encodeRecord_sw t i hop, harg] at hword
    obtain ⟨a, b, o, ho, rfl⟩ := exists_encode_of_iTypeWord hword
    exact ⟨a, b, o, decode_encode _, sint16_of_absoluteOffset hnum hk ho⟩
  · rw [encodeRecord_beq t i hop, harg] at hword
    obtain ⟨a, b, o, ho, rfl⟩ := exists_encode_of_iTypeWord hword
    refine ⟨a, b, o, decode_encode _, fun s hpc heq => ?_⟩
    have hto : s.pc + sint16 o = k := by
      rw [sint16_of_relativeOffset hnum hk ho]
      omega
    rw [decode_encode, exec_beq_of_eq heq, hto, jumpTo_of_nonneg (Int.natCast_nonneg k)]

/-! The output as an image (R188, R240, R242) -/

theorem imageWords_outputLines (words : List Word) : imageWords (outputLines words) = some words := by
  induction words with
  | nil => rfl
  | cons w ws ih => simp [outputLines, imageWords, recordValue_renderDecimal_sint, ih, wordOf_sint]

theorem loadError_of_imageWords {image : List Token} {ws : List Word} (h : imageWords image = some ws)
    (hlen : image.length ≤ Config.memWords) : loadError image = none := by
  simp [loadError, h, Nat.not_lt.mpr hlen]

/-- R240: a load whose records are all good and fit leaves the block with their Words. -/
theorem load_of_imageWords {image : List Token} {ws : List Word} (h : imageWords image = some ws)
    (hlen : image.length ≤ Config.memWords) (budget : Option Nat) (junk : State) :
    load image budget junk = loadedState ws budget := by
  rw [load_of_no_error (loadError_of_imageWords h hlen), h, Option.getD_some]

/-- Placing Words from address `a` up leaves the Words below `a` as they were. -/
theorem readWord_placeWords_below {m : Memory} (h : m.wf = true) {a b : Nat} {ws : List Word}
    (ha : a + ws.length ≤ Config.memWords) (hb : b < a) : (m.placeWords a ws).readWord b = m.readWord b := by
  induction ws generalizing m a with
  | nil => rfl
  | cons w ws ih =>
    rw [List.length_cons] at ha
    rw [Memory.placeWords, ih (wf_writeWord h (by omega) w) (by omega) (by omega),
      readWord_writeWord_ne h (by omega) (by omega)]

/-- R240: the Word placed at position `j` stands at address `a + j`. -/
theorem readWord_placeWords {m : Memory} (h : m.wf = true) {a j : Nat} {ws : List Word} {w : Word}
    (ha : a + ws.length ≤ Config.memWords) (hw : ws[j]? = some w) : (m.placeWords a ws).readWord (a + j) = w := by
  induction ws generalizing m a j with
  | nil => cases hw
  | cons w' ws ih =>
    rw [List.length_cons] at ha
    have hwf : (m.writeWord a w').wf = true := wf_writeWord h (by omega) w'
    rw [Memory.placeWords]
    cases j with
    | zero =>
      cases hw
      rw [readWord_placeWords_below hwf (by omega) (by omega)]
      exact readWord_writeWord_same h (by omega) w
    | succ j =>
      rw [show a + (j + 1) = a + 1 + j by omega]
      exact ih hwf (by omega) hw

/-- Settles O60: every output line is a good record of its Word, and a load places the Words from address 0 up. -/
theorem assembledOutputLoadsVerbatim : Obligations.AssembledOutputLoadsVerbatim := by
  intro maxLine lines words budget junk h hlen
  have hlines : (outputLines words).length = words.length := by rw [outputLines_eq_map, List.length_map]
  have hcount : words.length = (recordsOf lines).length := (encodeRecord_of_assemble h).1
  rw [load_of_imageWords (imageWords_outputLines words) (hlines.trans_le hlen)]
  refine ⟨rfl, ?_, fun i w hw => ?_⟩
  · rw [← hcount]
    exact Nat.mod_eq_of_lt (by omega)
  · rw [← Nat.zero_add i]
    exact readWord_placeWords wf_nil ((Nat.zero_add _).trans_le hlen) hw

end Sys2Proof.Machine

/-! ### Which faults there are (R211), and the faulting instruction's address (R212) -/

namespace Sys2Proof.Machine

/-! What a body that raises a fault did before it (R109): it wrote data, and no body moved `pc` -/

theorem DataEffect.keeps_runState {i : Instr} {s u : State} (h : DataEffect i s u) : u.runState = s.runState := by
  cases h <;> rfl

/-- Of the ways a body can end, only its fault leaves a running block faulted. -/
theorem exec_fault_eq_raise {i : Instr} {s t : State} {kind : FaultKind} (h : exec i s = .next t)
    (hs : s.runState = .running) (ht : t.runState = .faulted kind) : ∃ u, DataEffect i s u ∧ t = raise kind u := by
  obtain ⟨u, hdata, hcontrol⟩ := exec_effects h
  have hu : u.runState = .running := hdata.keeps_runState.trans hs
  cases hcontrol with
  | goOn => cases hu.symm.trans ht
  | fault _ => cases ht; exact ⟨u, hdata, rfl⟩
  | halt => cases ht
  | jump p _ _ => cases hu.symm.trans ht

theorem exec_fault_keeps_pc {i : Instr} {s t : State} {kind : FaultKind} (h : exec i s = .next t)
    (hs : s.runState = .running) (ht : t.runState = .faulted kind) : t.pc = s.pc := by
  obtain ⟨u, hdata, rfl⟩ := exec_fault_eq_raise h hs ht
  exact hdata.keeps_pc

/-! The condition of each fault of a body (R211) -/

theorem jumpTo_fault {p : Int} {u : State} {kind : FaultKind} (hu : u.runState = .running)
    (ht : (jumpTo p u).runState = .faulted kind) : kind = .negativeAddress p ∧ p < 0 := by
  rcases jumpTo_cases p u with ⟨hneg, e⟩ | ⟨-, e⟩ <;> rw [e] at ht
  · cases ht
    exact ⟨rfl, hneg⟩
  · cases hu.symm.trans ht

/-- R56: `lw` and `sw` raise the fault of the address check and no other. -/
theorem exec_access_fault {i : Instr} {a b : RegNum} {o : Offset} {s t : State} {kind : FaultKind}
    (hi : i = .lw a b o ∨ i = .sw a b o) (hs : s.runState = .running) (h : exec i s = .next t)
    (ht : t.runState = .faulted kind) :
    (kind = .negativeAddress (effectiveAddress s a o) ∧ effectiveAddress s a o < 0) ∨
    (kind = .memoryOutOfRange (effectiveAddress s a o) ∧ 65536 ≤ effectiveAddress s a o) := by
  rcases checkAddress_cases (effectiveAddress s a o) with ⟨hneg, herr⟩ | ⟨hbig, herr⟩ | ⟨-, -, hok⟩
  · cases (exec_access_error hi herr).symm.trans h
    cases ht
    exact .inl ⟨rfl, hneg⟩
  · cases (exec_access_error hi herr).symm.trans h
    cases ht
    exact .inr ⟨rfl, hbig⟩
  · rcases hi with rfl | rfl
    · cases (exec_lw_ok hok b).symm.trans h
      cases hs.symm.trans ht
    · cases (exec_sw_ok hok b).symm.trans h
      cases hs.symm.trans ht

theorem exec_beq_fault {a b : RegNum} {o : Offset} {s t : State} {kind : FaultKind} (hs : s.runState = .running)
    (h : exec (.beq a b o) s = .next t) (ht : t.runState = .faulted kind) :
    s.readReg a = s.readReg b ∧ kind = .negativeAddress (s.pc + sint16 o) ∧ s.pc + sint16 o < 0 := by
  by_cases heq : s.readReg a = s.readReg b
  · cases (exec_beq_of_eq heq o).symm.trans h
    exact ⟨heq, jumpTo_fault hs ht⟩
  · cases (exec_beq_of_ne heq o).symm.trans h
    cases hs.symm.trans ht

theorem exec_jalr_fault {a b : RegNum} {s t : State} {kind : FaultKind} (hs : s.runState = .running)
    (h : exec (.jalr a b) s = .next t) (ht : t.runState = .faulted kind) :
    kind = .negativeAddress (sint (s.readReg a)) ∧ sint (s.readReg a) < 0 := by
  cases (exec_jalr s a b).symm.trans h
  exact jumpTo_fault (u := s.writeReg b (wordOf s.pc)) hs ht

/-! The faults of a step (R101, R107, R211) -/

/-- R107: what follows a body adds one fault to the body's own, the fuse's, and only where the body left the block
`Running`. -/
theorem finish_fault_cases {u : State} {kind : FaultKind} (h : (finish u).runState = .faulted kind) :
    u.runState = .faulted kind ∨
    (u.runState = .running ∧ kind = .runtimeBudgetExceeded (finish u).instCount) := by
  rcases finish_cases u with ⟨_, -, e⟩ | ⟨hhalt, e⟩ | ⟨hrun, -, e⟩ | ⟨hrun, -, e⟩ <;> rw [e] at h ⊢
  · exact .inl h
  · cases h.symm.trans hhalt
  · cases h.symm.trans hrun
  · cases h
    exact .inr ⟨hrun, rfl⟩

theorem step_fault_cases {s t : State} {kind : FaultKind} (h : step s = .next t) (ht : t.runState = .faulted kind) :
    (¬ s.InFetchRange ∧ kind = .fetchOutOfRange s.pc) ∨
    (s.InFetchRange ∧ kind = .runtimeBudgetExceeded t.instCount ∧ decode (s.memRead s.pc.toNat) ≠ .halt) ∨
    (s.InFetchRange ∧ ∃ u, exec (decode (s.memRead s.pc.toNat)) (advance s) = .next u ∧ u.runState = .faulted kind) := by
  obtain ⟨hrun, ⟨hf, rfl⟩ | ⟨hf, u, hu, rfl⟩⟩ := step_cases h
  · cases ht
    exact .inl ⟨hf, rfl⟩
  · rcases finish_fault_cases ht with hbody | ⟨hgo, hfuse⟩
    · exact .inr (.inr ⟨hf, u, hu, hbody⟩)
    · refine .inr (.inl ⟨hf, hfuse, fun hhalt => ?_⟩)
      have hhalted : u.runState = .halted := (onlyHaltHalts _ (advance s) u hrun hu).mpr hhalt
      cases hgo.symm.trans hhalted

/-- Settles O19: a step's faults are the fetch's, the fuse's and the body's; each body's are those of the one checked
operation it ends with, the data access or the change of `pc`, and a body without one raises none. -/
theorem faultsAreThoseListed : Obligations.FaultsAreThoseListed := by
  refine ⟨fun _ _ _ => step_fault_cases, fun i s t kind hs h ht => ?_⟩
  cases i with
  | add a b d => cases (exec_add s a b d).symm.trans h; cases hs.symm.trans ht
  | nor a b d => cases (exec_nor s a b d).symm.trans h; cases hs.symm.trans ht
  | lw a b o => exact exec_access_fault (.inl rfl) hs h ht
  | sw a b o => exact exec_access_fault (.inr rfl) hs h ht
  | beq a b o => exact exec_beq_fault hs h ht
  | jalr a b => exact exec_jalr_fault hs h ht
  | halt => cases (exec_halt s).symm.trans h; cases ht
  | noop => cases (exec_noop s).symm.trans h; cases hs.symm.trans ht

/-! The faulting instruction's address (R212) -/

/-- R103, R212: a body runs at the advanced `pc`, so the address computed after its fault is the one before it. -/
theorem exec_faultingAddress {i : Instr} {s t : State} {kind : FaultKind} (h : exec i s = .next t)
    (hs : s.runState = .running) (ht : t.runState = .faulted kind) : t.faultingAddress = some (s.pc - 1) := by
  have hpc : t.pc = s.pc := exec_fault_keeps_pc h hs ht
  rcases exec_runState h with ⟨hsame, -⟩ | ⟨-, hhalt⟩ | ⟨v, hneg⟩ | ⟨v, hbig⟩
  · cases ht.symm.trans (hsame.trans hs)
  · cases ht.symm.trans hhalt
  · simp [State.faultingAddress, hneg, hpc]
  · simp [State.faultingAddress, hbig, hpc]

/-- Settles O21: a fetch fault leaves `pc` where it was, and a body's fault leaves it where the advance put it. -/
theorem faultingAddressIsFetchAddress : Obligations.FaultingAddressIsFetchAddress := by
  intro s t kind h ht hfuse
  obtain ⟨hrun, ⟨-, rfl⟩ | ⟨-, u, hu, rfl⟩⟩ := step_cases h
  · rfl
  · rcases finish_fault_cases ht with hbody | ⟨-, rfl⟩
    · rw [finish_of_faulted hbody, exec_faultingAddress hu hrun hbody, advance_pc, Int.add_sub_cancel]
    · exact absurd rfl (hfuse _)

end Sys2Proof.Machine

/-! ### Reads before the write (R246), and load (R240 to R243): which images fail, and what a good one leaves -/

namespace Sys2Proof.Machine

/-- Settles O34: each body is one register write of a value computed from the state before it, whichever registers the
sources are. -/
theorem readsComeBeforeTheWrite : Obligations.ReadsComeBeforeTheWrite := by
  refine ⟨fun a b d s _ => ⟨_, exec_add s a b d, readReg_writeReg_same s d _⟩,
    fun a b d s _ => ⟨_, exec_nor s a b d, readReg_writeReg_same s d _⟩,
    fun r o s h0 h1 => ⟨_, exec_lw_ok (checkAddress_inRange h0 h1) r, readReg_writeReg_same s r _⟩,
    fun r s h0 => ⟨_, exec_jalr_of_nonneg h0 r, readReg_writeReg_same s r _, rfl⟩⟩

/-! The records of an image (R242) -/

theorem recordValue_eq_some_iff (record : Token) (v : Int) :
    recordValue record = some v ↔ parseNumeral record = some v ∧ fitsSigned32 v = true := by
  refine ⟨fun h => ?_, fun ⟨hparse, hfits⟩ => recordValue_of_parseNumeral hparse hfits⟩
  unfold recordValue at h
  split at h
  · cases h
  · next hparse =>
    split at h
    · next hfits =>
      cases h
      exact ⟨hparse, hfits⟩
    · cases h

theorem recordValue_ne_none_iff (record : Token) :
    recordValue record ≠ none ↔ ∃ v, parseNumeral record = some v ∧ -2 ^ 31 ≤ v ∧ v ≤ 2 ^ 31 - 1 := by
  simp only [Option.ne_none_iff_exists', recordValue_eq_some_iff, fitsSigned32_iff, Int.le_sub_one_iff]

theorem imageWords_of_values {image : List Token} {values : List Int}
    (h : image.map recordValue = values.map some) : imageWords image = some (values.map wordOf) := by
  induction image generalizing values with
  | nil =>
    cases values with
    | nil => rfl
    | cons v vs => cases h
  | cons r rs ih =>
    cases values with
    | nil => cases h
    | cons v vs =>
      obtain ⟨hr, hrs⟩ := List.cons_eq_cons.mp h
      simp [imageWords, hr, ih hrs]

/-- One malformed record is enough: an image without one has a value for each of its records. -/
theorem imageWords_eq_none_iff (image : List Token) :
    imageWords image = none ↔ ∃ r ∈ image, recordValue r = none := by
  induction image with
  | nil => simp [imageWords]
  | cons r rs ih =>
    rw [List.exists_mem_cons_iff, ← ih]
    cases hr : recordValue r <;> cases hrs : imageWords rs <;> simp [imageWords, hr, hrs]

theorem length_imageWords {image : List Token} {ws : List Word} (h : imageWords image = some ws) :
    ws.length = image.length := by
  induction image generalizing ws with
  | nil => cases h; rfl
  | cons r rs ih =>
    unfold imageWords at h
    split at h
    · next hrs =>
      cases h
      simp [ih hrs]
    · cases h

/-! The load errors (R242) -/

theorem load_runState_of_error {image : List Token} {kind : FaultKind} (h : loadError image = some kind)
    (budget : Option Nat) (junk : State) : (load image budget junk).runState = .faulted kind := by
  simp [load, h]

section
variable {image : List Token}

theorem loadError_of_malformed (h : imageWords image = none) (hlen : image.length ≤ Config.memWords) :
    loadError image = some .malformedMemoryRecord := by
  simp [loadError, h, Nat.not_lt.mpr hlen]

theorem loadError_of_tooLarge (h : imageWords image ≠ none) (hlen : Config.memWords < image.length) :
    loadError image = some .imageTooLarge := by
  obtain ⟨ws, hws⟩ := Option.ne_none_iff_exists'.mp h
  simp [loadError, hws, hlen]

/-- The free value of notes/assumptions/9.md decides, and both of its values are allowed for. -/
theorem loadError_of_both (h : imageWords image = none) (hlen : Config.memWords < image.length) :
    loadError image = some .malformedMemoryRecord ∨ loadError image = some .imageTooLarge := by
  cases hfirst : Config.tooLargeReportedFirst
  · exact .inl (by simp [loadError, h, hlen, hfirst])
  · exact .inr (by simp [loadError, h, hlen, hfirst])

/-- An image loads only when all its records are good and no more than memory has Words. -/
theorem imageWords_of_no_error (h : loadError image = none) :
    ∃ ws, imageWords image = some ws ∧ image.length ≤ Config.memWords := by
  cases hws : imageWords image with
  | none =>
    rcases le_or_gt image.length Config.memWords with hlen | hlen
    · cases h.symm.trans (loadError_of_malformed hws hlen)
    · rcases loadError_of_both hws hlen with he | he <;> cases h.symm.trans he
  | some ws =>
    refine ⟨ws, rfl, le_of_not_gt fun hlen => ?_⟩
    cases h.symm.trans (loadError_of_tooLarge (by simp [hws]) hlen)

end

/-- Settles O45: an image has no Words exactly when a record is malformed, which leaves the errors by the two conditions. -/
theorem loadErrorsAreReported : Obligations.LoadErrorsAreReported := by
  refine fun image budget junk => ⟨fun hbad hlen => ?_, fun hgood hlen => ?_, fun hbad hlen => ?_,
    recordValue_ne_none_iff⟩
  · exact load_runState_of_error (loadError_of_malformed ((imageWords_eq_none_iff image).mpr hbad) hlen) budget junk
  · have hwords : imageWords image ≠ none := by
      rw [Ne, imageWords_eq_none_iff]
      exact fun ⟨r, hr, hnone⟩ => hgood r hr hnone
    exact load_runState_of_error (loadError_of_tooLarge hwords hlen) budget junk
  · exact (loadError_of_both ((imageWords_eq_none_iff image).mpr hbad) hlen).imp
      (load_runState_of_error · budget junk) (load_runState_of_error · budget junk)

/-! What a successful load leaves (R240, R241, R243) -/

/-- Placing Words from address `a` up leaves those past the last one as they were. -/
theorem readWord_placeWords_beyond {m : Memory} (h : m.wf = true) {a b : Nat} {ws : List Word}
    (ha : a + ws.length ≤ Config.memWords) (hb : a + ws.length ≤ b) : (m.placeWords a ws).readWord b = m.readWord b := by
  induction ws generalizing m a with
  | nil => rfl
  | cons w ws ih =>
    rw [List.length_cons] at ha hb
    rw [Memory.placeWords, ih (wf_writeWord h (by omega) w) (by omega) (by omega),
      readWord_writeWord_ne h (by omega) (by omega)]

section
variable {ws : List Word} (budget : Option Nat)

@[simp] theorem loadedState_readReg (r : RegNum) : (loadedState ws budget).readReg r = 0#32 := by
  simp [State.readReg, loadedState]

theorem loadedState_loadedWordCount (h : ws.length ≤ Config.memWords) :
    (loadedState ws budget).loadedWordCount.val = ws.length :=
  Nat.mod_eq_of_lt (Nat.lt_succ_of_le h)

theorem loadedState_inFetchRange_iff (h : ws.length ≤ Config.memWords) :
    (loadedState ws budget).InFetchRange ↔ ws ≠ [] := by
  have hcount := loadedState_loadedWordCount budget h
  rw [State.InFetchRange, hcount, ← List.length_pos_iff]
  simp [loadedState]

theorem loadedState_inv (h : ws.length ≤ Config.memWords) : (loadedState ws budget).Inv where
  memory := wf_placeWords wf_nil ((Nat.zero_add _).trans_le h)
  pc _ := ⟨le_rfl, by simp [loadedState]⟩
  budget := loadedState_withinBudget ws budget

end

theorem load_cases {image : List Token} (h : loadError image = none) (budget : Option Nat) (junk : State) :
    ∃ ws, ws.length = image.length ∧ ws.length ≤ Config.memWords ∧ load image budget junk = loadedState ws budget := by
  obtain ⟨ws, hws, hlen⟩ := imageWords_of_no_error h
  have hcount : ws.length = image.length := length_imageWords hws
  exact ⟨ws, hcount, hcount.trans_le hlen, load_of_imageWords hws hlen budget junk⟩

/-- Settles O17: the Words of an image that loads fit in memory, and all but memory starts as at reset. -/
theorem loadMeetsInvariant : Obligations.LoadMeetsInvariant := by
  intro image budget junk h
  obtain ⟨ws, -, hfit, e⟩ := load_cases h budget junk
  rw [e]
  exact loadedState_inv budget hfit

/-- Settles O44: the image's Words are those of its values, and they are placed over a memory of zeros. -/
theorem loadPlacesTheImage : Obligations.LoadPlacesTheImage := by
  intro image values budget junk hvalues hlen
  have hcount : (values.map wordOf).length = image.length := length_imageWords (imageWords_of_values hvalues)
  have hfit : (values.map wordOf).length ≤ Config.memWords := hcount.trans_le hlen
  have hplace : 0 + (values.map wordOf).length ≤ Config.memWords := (Nat.zero_add _).trans_le hfit
  rw [load_of_imageWords (imageWords_of_values hvalues) hlen]
  refine ⟨rfl, rfl, rfl, (loadedState_loadedWordCount budget hfit).trans hcount, rfl, loadedState_readReg budget,
    fun i v hv => ?_, fun i hi => ?_⟩
  · rw [← Nat.zero_add i]
    exact readWord_placeWords wf_nil hplace (by rw [List.getElem?_map, hv, Option.map_some])
  · exact (readWord_placeWords_beyond wf_nil hplace (by omega)).trans (readWord_nil i)

/-- Settles O46: the fetch range is empty for the empty image only, so that every other one is fetched from at `pc = 0`. -/
theorem loadedBlockRunsFromZero : Obligations.LoadedBlockRunsFromZero := by
  refine ⟨fun image budget junk h => ?_, fun budget junk => ⟨rfl, _, step_outOfRange rfl ?_, rfl⟩⟩
  · obtain ⟨ws, hcount, hfit, e⟩ := load_cases h budget junk
    rw [e]
    refine ⟨rfl, rfl, fun hne => fetch_inRange ((loadedState_inFetchRange_iff budget hfit).mpr ?_)⟩
    rwa [← List.length_pos_iff, hcount, List.length_pos_iff]
  · exact fun hf => (loadedState_inFetchRange_iff budget (Nat.zero_le _)).mp hf rfl

end Sys2Proof.Machine
